-- ==== Sys2Proof/Word.lean ====
section
/-! DEFINITION. The machine's words: bytes (registers, timers, memory) and 16-bit words (I, pc, stack slots,
opcodes). Every value is unsigned (R11). -/

namespace Sys2Proof

/-- An 8-bit value: a general register, a timer, a key counter, a memory byte (R20, R50). -/
abbrev Byte := BitVec 8

/-- A 16-bit value: I, pc, a stack slot, an opcode word (R23 to R25, R70). -/
abbrev Word := BitVec 16

/-- A 12-bit address immediate, the field NNN of an opcode (R71). -/
abbrev Addr12 := BitVec 12

end Sys2Proof
end

