-- ==== Sys2Proof/Syntax.lean ====
section
/-! DEFINITION. The instructions: one constructor per row of the opcode map (R76), in its order. Operand fields
have exactly the encoding's widths (R71), so that every field value is one the encoding can hold. -/

namespace Sys2Proof

/-- A register index, one of V0 to VF (R21): the fields X and Y. -/
abbrev Reg := Fin 16

/-- The 35 instructions of R76. `x`, `y` are the register fields, `nn` the byte immediate, `nnn` the address
immediate and `n` the sprite height (R71). -/
inductive Instr where
  /-- 00E0, CLS (R106) -/
  | cls
  /-- 00EE, RET (R123) -/
  | ret
  /-- 0NNN, SYS NNN (R124) -/
  | sys (nnn : Addr12)
  /-- 1NNN, JP NNN (R125) -/
  | jp (nnn : Addr12)
  /-- 2NNN, CALL NNN (R126) -/
  | call (nnn : Addr12)
  /-- 3XNN, SE Vx, NN (R127) -/
  | seImm (x : Reg) (nn : Byte)
  /-- 4XNN, SNE Vx, NN (R128) -/
  | sneImm (x : Reg) (nn : Byte)
  /-- 5XY0, SE Vx, Vy (R129); the low nibble is not an operand (R75) -/
  | seReg (x y : Reg)
  /-- 6XNN, LD Vx, NN (R151) -/
  | ldImm (x : Reg) (nn : Byte)
  /-- 7XNN, ADD Vx, NN (R152) -/
  | addImm (x : Reg) (nn : Byte)
  /-- 8XY0, LD Vx, Vy (R153) -/
  | ldReg (x y : Reg)
  /-- 8XY1, OR Vx, Vy (R154) -/
  | orReg (x y : Reg)
  /-- 8XY2, AND Vx, Vy (R155) -/
  | andReg (x y : Reg)
  /-- 8XY3, XOR Vx, Vy (R156) -/
  | xorReg (x y : Reg)
  /-- 8XY4, ADD Vx, Vy (R158) -/
  | addReg (x y : Reg)
  /-- 8XY5, SUB Vx, Vy (R159) -/
  | sub (x y : Reg)
  /-- 8XY6, SHR Vx (R160); Y is encoded and not read -/
  | shr (x y : Reg)
  /-- 8XY7, SUBN Vx, Vy (R161) -/
  | subn (x y : Reg)
  /-- 8XYE, SHL Vx (R162); Y is encoded and not read -/
  | shl (x y : Reg)
  /-- 9XY0, SNE Vx, Vy (R130); the low nibble is not an operand (R75) -/
  | sneReg (x y : Reg)
  /-- ANNN, LD I, NNN (R181) -/
  | ldI (nnn : Addr12)
  /-- BNNN, JP V0, NNN (R131) -/
  | jpV0 (nnn : Addr12)
  /-- CXNN, RND Vx, NN (R164) -/
  | rnd (x : Reg) (nn : Byte)
  /-- DXYN, DRW Vx, Vy, N (R107) -/
  | drw (x y : Reg) (n : Fin 16)
  /-- EX9E, SKP Vx (R204) -/
  | skp (x : Reg)
  /-- EXA1, SKNP Vx (R205) -/
  | sknp (x : Reg)
  /-- FX07, LD Vx, DT (R206) -/
  | ldVxDT (x : Reg)
  /-- FX0A, LD Vx, K (R207) -/
  | ldVxK (x : Reg)
  /-- FX15, LD DT, Vx (R208) -/
  | ldDTVx (x : Reg)
  /-- FX18, LD ST, Vx (R209) -/
  | ldSTVx (x : Reg)
  /-- FX1E, ADD I, Vx (R182) -/
  | addI (x : Reg)
  /-- FX29, LD F, Vx (R183) -/
  | ldF (x : Reg)
  /-- FX33, LD B, Vx (R184) -/
  | ldB (x : Reg)
  /-- FX55, LD [I], Vx (R186) -/
  | ldMemVx (x : Reg)
  /-- FX65, LD Vx, [I] (R187) -/
  | ldVxMem (x : Reg)
  deriving DecidableEq, Repr

end Sys2Proof
end

