-- ==== Sys2Proof/WellFormed.lean ====
section
/-! DEFINITION. Which instruction terms are instructions: the field types bound every operand, so the one check
left is SYS's excluded targets (R74, R81). -/

namespace Sys2Proof

/-- SYS NNN "must not be used with NNN = 0x0E0 or 0x0EE" (R81): those words are CLS and RET (R74). -/
def Addr12.sysTarget (nnn : Addr12) : Bool := nnn != 0x0E0#12 && nnn != 0x0EE#12

/-- An instruction is well-formed when an encoding of the opcode map stands for it (R76, R81). -/
def Instr.wf (i : Instr) : Bool :=
  match i with
  | .sys nnn => nnn.sysTarget
  | .cls | .ret | .jp _ | .call _ | .seImm _ _ | .sneImm _ _ | .seReg _ _ | .ldImm _ _ | .addImm _ _
  | .ldReg _ _ | .orReg _ _ | .andReg _ _ | .xorReg _ _ | .addReg _ _ | .sub _ _ | .shr _ _ | .subn _ _
  | .shl _ _ | .sneReg _ _ | .ldI _ | .jpV0 _ | .rnd _ _ | .drw _ _ _ | .skp _ | .sknp _ | .ldVxDT _
  | .ldVxK _ | .ldDTVx _ | .ldSTVx _ | .addI _ | .ldF _ | .ldB _ | .ldMemVx _ | .ldVxMem _ => true

end Sys2Proof
end

