-- ==== Sys2Proof/Decode.lean ====
section
/-! DEFINITION. The decoder (R70 to R79), total on every word and byte list and rejecting by name, and after it the
encoder, the opcode map's rows and the assembler text (R76, R81). -/

namespace Sys2Proof

/-! ### The fields of a word (R71) -/

/-- The group, op[15:12]. -/
def fieldGroup (w : Word) : BitVec 4 := w.extractLsb' 12 4

/-- X, op[11:8]. -/
def fieldX (w : Word) : Reg := (w.extractLsb' 8 4).toFin

/-- Y, op[7:4]. -/
def fieldY (w : Word) : Reg := (w.extractLsb' 4 4).toFin

/-- N, op[3:0]. -/
def fieldN (w : Word) : BitVec 4 := w.extractLsb' 0 4

/-- NN, op[7:0]. -/
def fieldNN (w : Word) : Byte := w.extractLsb' 0 8

/-- NNN, op[11:0]. -/
def fieldNNN (w : Word) : Addr12 := w.extractLsb' 0 12

/-! ### Decoding -/

/-- Why bytes are not an instruction. -/
inductive Reject where
  /-- Fewer than the two bytes of a word (R70). -/
  | tooShort
  /-- Group 8 with N not one of 0 to 7 and E (R77, R163). -/
  | illegalGroup8 (w : Word)
  /-- Group E with NN not 9E or A1 (R77, R212). -/
  | illegalGroupE (w : Word)
  /-- Group F with NN not one of the nine listed (R77, R212). -/
  | illegalGroupF (w : Word)
  /-- A top nibble of no group: no word reaches this (R78). -/
  | noGroup (w : Word)
  deriving DecidableEq, Repr

/-- Group 0: CLS and RET match on all 16 bits, every other word is SYS (R74). -/
def decodeGroup0 (w : Word) : Instr :=
  if w = 0x00E0#16 then .cls
  else if w = 0x00EE#16 then .ret
  else .sys (fieldNNN w)

/-- Group 8 is selected by N (R73, R163). -/
def decodeGroup8 (w : Word) : Except Reject Instr :=
  match (fieldN w).toNat with
  | 0x0 => .ok (.ldReg (fieldX w) (fieldY w))
  | 0x1 => .ok (.orReg (fieldX w) (fieldY w))
  | 0x2 => .ok (.andReg (fieldX w) (fieldY w))
  | 0x3 => .ok (.xorReg (fieldX w) (fieldY w))
  | 0x4 => .ok (.addReg (fieldX w) (fieldY w))
  | 0x5 => .ok (.sub (fieldX w) (fieldY w))
  | 0x6 => .ok (.shr (fieldX w) (fieldY w))
  | 0x7 => .ok (.subn (fieldX w) (fieldY w))
  | 0xE => .ok (.shl (fieldX w) (fieldY w))
  | _ => .error (.illegalGroup8 w)

/-- Group E is selected by NN (R73, R212). -/
def decodeGroupE (w : Word) : Except Reject Instr :=
  if fieldNN w = 0x9E#8 then .ok (.skp (fieldX w))
  else if fieldNN w = 0xA1#8 then .ok (.sknp (fieldX w))
  else .error (.illegalGroupE w)

/-- Group F is selected by NN (R73, R212). -/
def decodeGroupF (w : Word) : Except Reject Instr :=
  if fieldNN w = 0x07#8 then .ok (.ldVxDT (fieldX w))
  else if fieldNN w = 0x0A#8 then .ok (.ldVxK (fieldX w))
  else if fieldNN w = 0x15#8 then .ok (.ldDTVx (fieldX w))
  else if fieldNN w = 0x18#8 then .ok (.ldSTVx (fieldX w))
  else if fieldNN w = 0x1E#8 then .ok (.addI (fieldX w))
  else if fieldNN w = 0x29#8 then .ok (.ldF (fieldX w))
  else if fieldNN w = 0x33#8 then .ok (.ldB (fieldX w))
  else if fieldNN w = 0x55#8 then .ok (.ldMemVx (fieldX w))
  else if fieldNN w = 0x65#8 then .ok (.ldVxMem (fieldX w))
  else .error (.illegalGroupF w)

/-- Decoding one opcode word: dispatch on the group, and on a secondary value in groups 0, 8, E and F only (R73), so
that the low nibble of groups 5 and 9 is not examined (R75). -/
def decodeWord (w : Word) : Except Reject Instr :=
  match (fieldGroup w).toNat with
  | 0x0 => .ok (decodeGroup0 w)
  | 0x1 => .ok (.jp (fieldNNN w))
  | 0x2 => .ok (.call (fieldNNN w))
  | 0x3 => .ok (.seImm (fieldX w) (fieldNN w))
  | 0x4 => .ok (.sneImm (fieldX w) (fieldNN w))
  | 0x5 => .ok (.seReg (fieldX w) (fieldY w))
  | 0x6 => .ok (.ldImm (fieldX w) (fieldNN w))
  | 0x7 => .ok (.addImm (fieldX w) (fieldNN w))
  | 0x8 => decodeGroup8 w
  | 0x9 => .ok (.sneReg (fieldX w) (fieldY w))
  | 0xA => .ok (.ldI (fieldNNN w))
  | 0xB => .ok (.jpV0 (fieldNNN w))
  | 0xC => .ok (.rnd (fieldX w) (fieldNN w))
  | 0xD => .ok (.drw (fieldX w) (fieldY w) (fieldN w).toFin)
  | 0xE => decodeGroupE w
  | 0xF => decodeGroupF w
  | _ => .error (.noGroup w)

/-- The word of two bytes, the one at the lower address in bits 15:8 (R52, R70). -/
def wordOfBytes (hi lo : Byte) : Word := hi ++ lo

/-- Decoding the front of a byte list: an instruction takes exactly two bytes (R70, R80). Answers the instruction and
the bytes after it. -/
def decode (bytes : List Byte) : Except Reject (Instr × List Byte) :=
  match bytes with
  | hi :: lo :: rest =>
    match decodeWord (wordOfBytes hi lo) with
    | .ok i => .ok (i, rest)
    | .error e => .error e
  | _ => .error .tooShort

/-- The bytes of a word as memory holds them, lower address first (R70). -/
def bytesOfWord (w : Word) : List Byte := [w.extractLsb' 8 8, w.extractLsb' 0 8]

/-- The instruction the decoder reads from a table row's word: `w` is the opcode word itself, bit 0 its least
significant bit, with the bits above `nbits` zero; it is laid out big-endian and given to `decode`. -/
def decodeTableWord (nbits w : Nat) : Option Instr :=
  match decode (bytesOfWord (BitVec.ofNat 16 (w % 2 ^ nbits))) with
  | .ok (i, _) => some i
  | .error _ => none

/-! ### Encoding -/

/-- A register index as the four bits of a field X or Y. -/
def regBits (r : Reg) : BitVec 4 := BitVec.ofNat 4 r.val

/-- A word of the layout gggg nnnnnnnnnnnn (R71). -/
def wordNNN (g : BitVec 4) (nnn : Addr12) : Word := g ++ nnn

/-- A word of the layout gggg xxxx nnnnnnnn (R71). -/
def wordXNN (g : BitVec 4) (x : Reg) (nn : Byte) : Word := wordNNN g (regBits x ++ nn)

/-- A word of the layout gggg xxxx yyyy nnnn (R71). -/
def wordXYN (g : BitVec 4) (x y : Reg) (n : BitVec 4) : Word := wordXNN g x (regBits y ++ n)

/-- The canonical word of an instruction (R76): SE Vx, Vy and SNE Vx, Vy with low nibble 0 (R75, R81). SHR and SHL keep
their Y, which the spec's assembler writes as 0 (R81), so that decoding an encoding loses no bit. -/
def encode (i : Instr) : Word :=
  match i with
  | .cls => 0x00E0#16
  | .ret => 0x00EE#16
  | .sys nnn => wordNNN 0x0#4 nnn
  | .jp nnn => wordNNN 0x1#4 nnn
  | .call nnn => wordNNN 0x2#4 nnn
  | .seImm x nn => wordXNN 0x3#4 x nn
  | .sneImm x nn => wordXNN 0x4#4 x nn
  | .seReg x y => wordXYN 0x5#4 x y 0x0#4
  | .ldImm x nn => wordXNN 0x6#4 x nn
  | .addImm x nn => wordXNN 0x7#4 x nn
  | .ldReg x y => wordXYN 0x8#4 x y 0x0#4
  | .orReg x y => wordXYN 0x8#4 x y 0x1#4
  | .andReg x y => wordXYN 0x8#4 x y 0x2#4
  | .xorReg x y => wordXYN 0x8#4 x y 0x3#4
  | .addReg x y => wordXYN 0x8#4 x y 0x4#4
  | .sub x y => wordXYN 0x8#4 x y 0x5#4
  | .shr x y => wordXYN 0x8#4 x y 0x6#4
  | .subn x y => wordXYN 0x8#4 x y 0x7#4
  | .shl x y => wordXYN 0x8#4 x y 0xE#4
  | .sneReg x y => wordXYN 0x9#4 x y 0x0#4
  | .ldI nnn => wordNNN 0xA#4 nnn
  | .jpV0 nnn => wordNNN 0xB#4 nnn
  | .rnd x nn => wordXNN 0xC#4 x nn
  | .drw x y n => wordXYN 0xD#4 x y (BitVec.ofNat 4 n.val)
  | .skp x => wordXNN 0xE#4 x 0x9E#8
  | .sknp x => wordXNN 0xE#4 x 0xA1#8
  | .ldVxDT x => wordXNN 0xF#4 x 0x07#8
  | .ldVxK x => wordXNN 0xF#4 x 0x0A#8
  | .ldDTVx x => wordXNN 0xF#4 x 0x15#8
  | .ldSTVx x => wordXNN 0xF#4 x 0x18#8
  | .addI x => wordXNN 0xF#4 x 0x1E#8
  | .ldF x => wordXNN 0xF#4 x 0x29#8
  | .ldB x => wordXNN 0xF#4 x 0x33#8
  | .ldMemVx x => wordXNN 0xF#4 x 0x55#8
  | .ldVxMem x => wordXNN 0xF#4 x 0x65#8

/-- The two bytes of an instruction in memory (R70). -/
def encodeBytes (i : Instr) : List Byte := bytesOfWord (encode i)

/-! ### The opcode map as data -/

/-- The `mask` column of R76's row for an instruction. -/
def Instr.mask (i : Instr) : Word :=
  match i with
  | .cls | .ret => 0xFFFF#16
  | .sys _ | .jp _ | .call _ | .seImm _ _ | .sneImm _ _ | .seReg _ _ | .ldImm _ _ | .addImm _ _
  | .sneReg _ _ | .ldI _ | .jpV0 _ | .rnd _ _ | .drw _ _ _ => 0xF000#16
  | .ldReg _ _ | .orReg _ _ | .andReg _ _ | .xorReg _ _ | .addReg _ _ | .sub _ _ | .shr _ _ | .subn _ _
  | .shl _ _ => 0xF00F#16
  | .skp _ | .sknp _ | .ldVxDT _ | .ldVxK _ | .ldDTVx _ | .ldSTVx _ | .addI _ | .ldF _ | .ldB _
  | .ldMemVx _ | .ldVxMem _ => 0xF0FF#16

/-- The `match` column of R76's row for an instruction. -/
def Instr.matchBits (i : Instr) : Word :=
  match i with
  | .cls => 0x00E0#16
  | .ret => 0x00EE#16
  | .sys _ => 0x0000#16
  | .jp _ => 0x1000#16
  | .call _ => 0x2000#16
  | .seImm _ _ => 0x3000#16
  | .sneImm _ _ => 0x4000#16
  | .seReg _ _ => 0x5000#16
  | .ldImm _ _ => 0x6000#16
  | .addImm _ _ => 0x7000#16
  | .ldReg _ _ => 0x8000#16
  | .orReg _ _ => 0x8001#16
  | .andReg _ _ => 0x8002#16
  | .xorReg _ _ => 0x8003#16
  | .addReg _ _ => 0x8004#16
  | .sub _ _ => 0x8005#16
  | .shr _ _ => 0x8006#16
  | .subn _ _ => 0x8007#16
  | .shl _ _ => 0x800E#16
  | .sneReg _ _ => 0x9000#16
  | .ldI _ => 0xA000#16
  | .jpV0 _ => 0xB000#16
  | .rnd _ _ => 0xC000#16
  | .drw _ _ _ => 0xD000#16
  | .skp _ => 0xE09E#16
  | .sknp _ => 0xE0A1#16
  | .ldVxDT _ => 0xF007#16
  | .ldVxK _ => 0xF00A#16
  | .ldDTVx _ => 0xF015#16
  | .ldSTVx _ => 0xF018#16
  | .addI _ => 0xF01E#16
  | .ldF _ => 0xF029#16
  | .ldB _ => 0xF033#16
  | .ldMemVx _ => 0xF055#16
  | .ldVxMem _ => 0xF065#16

/-! ### Assembler text (R81) -/

/-- A hexadecimal digit, upper case. -/
def hexDigit (n : Nat) : String := String.singleton ("0123456789ABCDEF".toList.getD (n % 16) '0')

/-- A register operand, V0 to VF. -/
def regText (r : Reg) : String := "V" ++ hexDigit r.val

/-- A byte operand. -/
def byteText (b : Byte) : String := "0x" ++ hexDigit (b.toNat / 16) ++ hexDigit b.toNat

/-- A 12-bit address operand. -/
def addrText (a : Addr12) : String :=
  "0x" ++ hexDigit (a.toNat / 256) ++ hexDigit (a.toNat / 16) ++ hexDigit a.toNat

/-- The instruction in the customary assembler form the spec uses as its labels (R76, R81); no rule depends on it.
DESIGN CHOICE (log 18): the spec says of DRW's operand N only "a nibble 0 to 15" and its listings show 0, 1 and 5; the
model writes it as one bare upper-case hexadecimal digit, 10 to 15 as A to F. Safe: no effect on the machine. -/
def Instr.asmText (i : Instr) : String :=
  match i with
  | .cls => "CLS"
  | .ret => "RET"
  | .sys nnn => "SYS " ++ addrText nnn
  | .jp nnn => "JP " ++ addrText nnn
  | .call nnn => "CALL " ++ addrText nnn
  | .seImm x nn => "SE " ++ regText x ++ ", " ++ byteText nn
  | .sneImm x nn => "SNE " ++ regText x ++ ", " ++ byteText nn
  | .seReg x y => "SE " ++ regText x ++ ", " ++ regText y
  | .ldImm x nn => "LD " ++ regText x ++ ", " ++ byteText nn
  | .addImm x nn => "ADD " ++ regText x ++ ", " ++ byteText nn
  | .ldReg x y => "LD " ++ regText x ++ ", " ++ regText y
  | .orReg x y => "OR " ++ regText x ++ ", " ++ regText y
  | .andReg x y => "AND " ++ regText x ++ ", " ++ regText y
  | .xorReg x y => "XOR " ++ regText x ++ ", " ++ regText y
  | .addReg x y => "ADD " ++ regText x ++ ", " ++ regText y
  | .sub x y => "SUB " ++ regText x ++ ", " ++ regText y
  | .shr x _ => "SHR " ++ regText x
  | .subn x y => "SUBN " ++ regText x ++ ", " ++ regText y
  | .shl x _ => "SHL " ++ regText x
  | .sneReg x y => "SNE " ++ regText x ++ ", " ++ regText y
  | .ldI nnn => "LD I, " ++ addrText nnn
  | .jpV0 nnn => "JP V0, " ++ addrText nnn
  | .rnd x nn => "RND " ++ regText x ++ ", " ++ byteText nn
  | .drw x y n => "DRW " ++ regText x ++ ", " ++ regText y ++ ", " ++ hexDigit n.val
  | .skp x => "SKP " ++ regText x
  | .sknp x => "SKNP " ++ regText x
  | .ldVxDT x => "LD " ++ regText x ++ ", DT"
  | .ldVxK x => "LD " ++ regText x ++ ", K"
  | .ldDTVx x => "LD DT, " ++ regText x
  | .ldSTVx x => "LD ST, " ++ regText x
  | .addI x => "ADD I, " ++ regText x
  | .ldF x => "LD F, " ++ regText x
  | .ldB x => "LD B, " ++ regText x
  | .ldMemVx x => "LD [I], " ++ regText x
  | .ldVxMem x => "LD " ++ regText x ++ ", [I]"

end Sys2Proof
end

