-- ==== Sys2Proof/Config.lean ====
section
/-! DEFINITION. The events of R232, the free values of the model (opaque, so that nothing can evaluate them) and the
shape of the parameters of R7. The fixed numbers of R6 stand in Machine/Constants.lean. -/

namespace Sys2Proof

/-! ### Events -/

/-- The scheduler's events, and only these (R232). `r` is the random byte for a CXNN, if one executes. -/
inductive Machine.Event where
  | cpuTick (r : Byte)
  | timerTick
  | keyDecayTick
  | keyPress (k : Fin 16)
  | setPaused (b : Bool)
  | reset
  | stepForward (r : Byte)
  | stepBack
  | beginRewind (n : Nat)
  | rewindDecay
  | resize
  | quit
  deriving DecidableEq, Repr

/-! ### Free values

`Config.arrival` is applied to `State.stepCount`, a counter that every step advances; the others to `State.freeCount`,
a counter that every executed instruction advances. -/

/-- FREE VALUE: the infinite stream of what the environment enqueues when the channel is empty, an event or nothing. Any
finite or infinite sequence of events is a possible input, and so is none (R233, U14; log 1). -/
opaque Config.arrival : Nat → Option Machine.Event

/-- FREE VALUE: the random byte of the CPU tick that `withFetchWord` enqueues (R164, U8; log 2). -/
opaque Config.randomByte : Nat → Byte

/-- FREE VALUE: the content of `trace` after an executed instruction (R30, U15; log 3). -/
opaque Config.traceText : Nat → String

/-- FREE VALUE: the diagnostic "opcode" of the output (R250, U15; log 4). -/
opaque Config.diagnosticOpcode : Nat → Word

/-- FREE VALUE: the diagnostic "cycle count" of the output (R250, U15; log 4). -/
opaque Config.diagnosticCycles : Nat → Nat

/-! ### Parameters -/

/-- `HISTORY_CAPACITY` of R7: unbounded, or a number of snapshots (R40, R246). -/
inductive HistoryCapacity where
  | unbounded
  | bounded (c : Nat)
  deriving DecidableEq, Repr

/-- The arguments of the model (R7). `font` has exactly the 80 bytes of 16 glyphs of 5 rows. -/
structure Params where
  /-- The program bytes; the launch premise is a length of at most `romMax` (R262). -/
  rom : List Byte
  /-- The font bytes, in address order from `fontBase` (R33, R261). -/
  font : Vector Byte 80
  /-- How many snapshots the history holds (R246). -/
  historyCapacity : HistoryCapacity
  /-- The value of `paused` at power-on (R263). -/
  startPaused : Bool
  deriving DecidableEq, Repr

end Sys2Proof
end

