-- ==== Sys2Proof/Machine/Constants.lean ====
section
/-! DEFINITION. The fixed numbers of R6 as named constants, so that a corrected literal changes one definition
(93_implementation_defined.md section 3), the default font (R33) and the default parameters (R7). -/

namespace Sys2Proof.Machine

/-- `MEM_SIZE`: addresses 0x000 to 0xFFF (R6, R50). -/
def memSize : Nat := 4096

/-- `STACK_DEPTH` (R6, R24). -/
def stackDepth : Nat := 16

/-- `DISPLAY_W` (R6, R29). -/
def displayW : Nat := 64

/-- `DISPLAY_H` (R6, R29). -/
def displayH : Nat := 32

/-- `WRAP_X`, the modulus of a sprite's origin column: 63, one less than the width (R6, R102). -/
def wrapX : Nat := 63

/-- `WRAP_Y`, the modulus of a sprite's origin row: 31, one less than the height (R6, R102). -/
def wrapY : Nat := 31

/-- `FONT_BASE` (R6, R33). -/
def fontBase : Nat := 0x050

/-- `FONT_GLYPH_BYTES` (R6, R33). -/
def glyphBytes : Nat := 5

/-- `PROGRAM_START` (R6, R262). -/
def programStart : Nat := 0x200

/-- `ROM_MAX` (R6, R262). -/
def romMax : Nat := 3584

/-- `NUM_KEYS` (R6, R28). -/
def numKeys : Nat := 16

/-- `KEY_PRESS_VALUE` (R6, R201). -/
def keyPressValue : Byte := 2#8

/-- The default `FONT`: the customary glyphs, 0 to F, five rows each (R33). -/
def defaultFontBytes : List Byte :=
  [0xF0#8, 0x90#8, 0x90#8, 0x90#8, 0xF0#8] ++ [0x20#8, 0x60#8, 0x20#8, 0x20#8, 0x70#8] ++
  [0xF0#8, 0x10#8, 0xF0#8, 0x80#8, 0xF0#8] ++ [0xF0#8, 0x10#8, 0xF0#8, 0x10#8, 0xF0#8] ++
  [0x90#8, 0x90#8, 0xF0#8, 0x10#8, 0x10#8] ++ [0xF0#8, 0x80#8, 0xF0#8, 0x10#8, 0xF0#8] ++
  [0xF0#8, 0x80#8, 0xF0#8, 0x90#8, 0xF0#8] ++ [0xF0#8, 0x10#8, 0x20#8, 0x40#8, 0x40#8] ++
  [0xF0#8, 0x90#8, 0xF0#8, 0x90#8, 0xF0#8] ++ [0xF0#8, 0x90#8, 0xF0#8, 0x10#8, 0xF0#8] ++
  [0xF0#8, 0x90#8, 0xF0#8, 0x90#8, 0x90#8] ++ [0xE0#8, 0x90#8, 0xE0#8, 0x90#8, 0xE0#8] ++
  [0xF0#8, 0x80#8, 0x80#8, 0x80#8, 0xF0#8] ++ [0xE0#8, 0x90#8, 0x90#8, 0x90#8, 0xE0#8] ++
  [0xF0#8, 0x80#8, 0xF0#8, 0x80#8, 0xF0#8] ++ [0xF0#8, 0x80#8, 0xF0#8, 0x80#8, 0x80#8]

/-- The default `FONT` as the parameter holds it (R7). -/
def defaultFont : Vector Byte 80 := ⟨defaultFontBytes.toArray, rfl⟩

/-- The defaults of R7: no program bytes, the default font, an unbounded history, not paused. -/
def Params.default : Params :=
  { rom := [], font := defaultFont, historyCapacity := .unbounded, startPaused := false }

end Sys2Proof.Machine
end

