-- ==== Sys2Proof/Machine/Memory.lean ====
section
/-! DEFINITION. Memory: the bytes at addresses 0x000 to 0xFFF (R50), as a list of cells in one canonical form, with
its read, its write and the range check of R53. -/

namespace Sys2Proof.Machine

/-- Memory lists the bytes that differ from `resetByte`, by rising address. -/
abbrev Memory := List Host.Cell

/-- What an unlisted address reads as: the default font at 0x050 to 0x09F, zero elsewhere (R45, R260; log 6). -/
def resetByte (a : Nat) : Byte :=
  if fontBase ≤ a then defaultFontBytes.getD (a - fontBase) 0#8 else 0#8

/-- The byte at an address (`MemRead` of R12 without its range check). -/
def Memory.read (m : Memory) (a : Nat) : Byte :=
  match m with
  | [] => resetByte a
  | (b, v) :: rest => if a = b then v else Memory.read rest a

/-- `m` with the byte at address `a` set to `v` (`MemWrite` of R12 without its range check), in canonical form. -/
def Memory.write (m : Memory) (a : Nat) (v : Byte) : Memory :=
  match m with
  | [] => if v = resetByte a then [] else [(a, v)]
  | (b, w) :: rest =>
    if a < b then
      if v = resetByte a then (b, w) :: rest else (a, v) :: (b, w) :: rest
    else if a = b then
      if v = resetByte a then rest else (a, v) :: rest
    else (b, w) :: Memory.write rest a v

/-- `m` with the bytes `vs` written from address `a` up, in order. -/
def Memory.writeList (m : Memory) (a : Nat) (vs : List Byte) : Memory :=
  match vs with
  | [] => m
  | v :: rest => Memory.writeList (Memory.write m a v) (a + 1) rest

/-- The `n` bytes of `m` from address `a` up. -/
def Memory.readList (m : Memory) (a n : Nat) : List Byte := (List.range n).map fun j => Memory.read m (a + j)

/-- The canonical form from address `lo` up: addresses rise strictly and lie below `memSize`, and no entry equals what
its address reads as unlisted. -/
def Memory.wfFrom (lo : Nat) (m : Memory) : Bool :=
  match m with
  | [] => true
  | (a, v) :: rest => decide (lo ≤ a) && decide (a < memSize) && decide (v ≠ resetByte a) && Memory.wfFrom (a + 1) rest

/-- The canonical form: equal memories are equal lists. -/
def Memory.wf (m : Memory) : Bool := Memory.wfFrom 0 m

end Sys2Proof.Machine
end

