-- ==== Sys2Proof/Machine/MachineState.lean ====
section
/-! DEFINITION. The MachineState: what a CHIP-8 program sees and a snapshot copies (R20, R35), and its value after
power-on or reset (R45, R260). -/

namespace Sys2Proof.Machine

/-- The 64 × 32 pixels, `fb[row][col]` with row 0 at the top and column 0 at the left (R29). -/
abbrev Framebuffer := Vector (Vector Bool 64) 32

/-- The fields of R20, and only these. -/
structure MachineState where
  /-- 4096 bytes (R31, R50). -/
  memory : Memory
  /-- V0 to VF; VF is also the flag output (R21, R22). -/
  V : Vector Byte 16
  /-- The index register (R23). -/
  I : Word
  /-- The program counter: between instructions, the address of the next one (R25). -/
  pc : Word
  /-- The 16 slots of the return stack (R24). -/
  stack : Vector Word 16
  /-- The number of return addresses held, 0 to 16 (R24). -/
  sp : Fin 17
  /-- The delay timer (R26). -/
  DT : Byte
  /-- The sound timer (R27). -/
  ST : Byte
  /-- The press-intensity counters of keys 0 to F (R28). -/
  keys : Vector Byte 16
  /-- The framebuffer (R29). -/
  fb : Framebuffer
  /-- The diagnostic string; no rule reads it (R30). -/
  trace : String
  deriving DecidableEq, Repr

/-- Every pixel 0 (R101). -/
def blankFramebuffer : Framebuffer := Vector.replicate 32 (Vector.replicate 64 false)

/-- The memory of R260: the font from `fontBase` (R261), the program from `programStart` (R262), zero elsewhere. -/
def initialMemory (p : Params) : Memory :=
  Memory.writeList (Memory.writeList [] fontBase p.font.toList) programStart p.rom

/-- `initial_state(ROM, FONT)` (R45, R260), at power-on and after the Reset event. -/
def initialState (p : Params) : MachineState :=
  { memory := initialMemory p
    V := Vector.replicate 16 0#8
    I := 0#16
    pc := BitVec.ofNat 16 programStart
    stack := Vector.replicate 16 0#16
    sp := 0
    DT := 0#8
    ST := 0#8
    keys := Vector.replicate 16 0#8
    fb := blankFramebuffer
    trace := "" }

end Sys2Proof.Machine
end

