-- ==== Sys2Proof/Machine/State.lean ====
section
/-! DEFINITION. The whole state: the scheduler's tuple (R44), the parameters and the event channel it reads, and the
model's own two fields for free values. With it the faults (R221), the refusals and the state at power-on (R263). -/

namespace Sys2Proof.Machine

/-- The faults of R221, each with the detail its record holds. A fault is the terminal outcome of an event and its
effect is a NEXT state whose status is `faulted` (R225); `step` and `exec` never answer `Host.Outcome.fault`. -/
inductive Fault where
  /-- Code 1: the word matches no row of the opcode map; raised by the interpreter step after decoding (R77). Safe: the
  machine stops where the source is silent. -/
  | illegalInstruction (opcode : Word)
  /-- Code 2: a push at depth 16, by CALL and SYS (R121). Safe: the source requires the stop. -/
  | stackOverflow
  /-- Code 3: a pop at depth 0, by RET (R122). Safe: the source requires the stop. -/
  | stackUnderflow
  /-- Code 4: a byte address above 0xFFF, by fetch, DXYN, FX33, FX55 and FX65 (R53, R185). Safe: no such byte exists. -/
  | memoryOutOfRange (addr : Nat)
  /-- Code 5: a key number above 15, by EX9E and EXA1 (R204, R205). Safe: no such key exists. -/
  | keyIndexOutOfRange (value : Byte)
  /-- Code 6: a top nibble of no group; no word raises it (R78). Safe: unreachable. -/
  | dispatchUnreachable (opcode : Word)
  deriving DecidableEq, Repr

/-- The fault record of R226. Its code and detail are `fault.code` and `fault.detail`. -/
structure FaultRecord where
  /-- The kind, with its detail. -/
  fault : Fault
  /-- The address of the faulting instruction. -/
  pc : Word
  /-- Its word, or none for a fetch fault. -/
  opcode : Option Word
  deriving DecidableEq, Repr

/-- Why the model gives no next state. -/
inductive Refusal where
  /-- An instruction that has no meaning yet. No arm of `exec` answers it: every instruction has its meaning. Safe. -/
  | notModelled (mnemonic : String)
  /-- `load` was given a program of more than 3584 bytes: no machine is created (R262). Safe: the spec refuses it too. -/
  | romTooLong (length : Nat)
  /-- `load` was given a history capacity of 0, which R40 does not admit. Safe: no machine is created (log 9). -/
  | noHistoryCapacity
  deriving DecidableEq, Repr

/-- The scheduler's status (R43). -/
inductive Status where
  | running
  | faulted (record : FaultRecord)
  | quit
  deriving DecidableEq, Repr

/-- The state: the scheduler's tuple of R44 (the first five fields), and what its step reads besides. -/
structure State where
  /-- The MachineState (R20, R44). -/
  current : MachineState
  /-- The snapshots, most recent last (R40). -/
  history : List MachineState
  /-- CPU ticks make no interpreter step while it is true (R41). -/
  paused : Bool
  /-- The rewind counter (R42). -/
  rewind : Nat
  /-- Events change state only while it is `running` (R43). -/
  status : Status
  /-- The events waiting in the one ordered channel, next first (R233; log 1). -/
  pending : List Event
  /-- MODEL'S OWN: how many steps have been taken, the index of the free event stream `Config.arrival` that the
  environment feeds an empty channel from (R233; log 1). -/
  stepCount : Nat
  /-- ROM, FONT, HISTORY_CAPACITY and START_PAUSED, the arguments of the step relation (R7, R44); no step changes them. -/
  params : Params
  /-- MODEL'S OWN: `draw_random()` of the interpreter step that runs (R164, R231), latched from its event (log 2). -/
  draw : Byte
  /-- MODEL'S OWN: how many free values have been taken; each executed instruction advances it (logs 2 to 4). -/
  freeCount : Nat
  deriving DecidableEq, Repr

/-- The state at power-on (R263), with nothing waiting in the channel. -/
def State.powerOn (p : Params) : State :=
  { current := initialState p
    history := []
    paused := p.startPaused
    rewind := 0
    status := .running
    pending := []
    stepCount := 0
    params := p
    draw := 0#8
    freeCount := 0 }

/-- Power-on with the default parameters of R7. -/
def State.reset : State := State.powerOn Params.default

end Sys2Proof.Machine
end

