-- ==== Sys2Proof/Machine/Ops.lean ====
section
/-! DEFINITION. The named operations over registers, memory and the stack (R12), and the one way an instruction ends:
retired, or in a fault (R224 to R226). -/

namespace Sys2Proof.Machine

/-- What an interpreter step, a meaning or an event answers. -/
abbrev Result := Host.Outcome State Fault Refusal

/-- What an instruction's own pseudocode answers: the new MachineState, or the fault it raises (R231). -/
abbrev Effect := Except Fault MachineState

/-! ### Fault codes -/

/-- The code of R221. -/
def Fault.code (f : Fault) : Nat :=
  match f with
  | .illegalInstruction _ => 1
  | .stackOverflow => 2
  | .stackUnderflow => 3
  | .memoryOutOfRange _ => 4
  | .keyIndexOutOfRange _ => 5
  | .dispatchUnreachable _ => 6

/-- The detail recorded, R221's last column. -/
def Fault.detail (f : Fault) : Option Nat :=
  match f with
  | .illegalInstruction w => some w.toNat
  | .stackOverflow => none
  | .stackUnderflow => none
  | .memoryOutOfRange a => some a
  | .keyIndexOutOfRange v => some v.toNat
  | .dispatchUnreachable w => some w.toNat

/-! ### Fields -/

/-- `V[x]` (R12, R21). -/
def MachineState.getV (m : MachineState) (x : Reg) : Byte := m.V[x]

/-- `V[x] <- v` (R12, R21). -/
def MachineState.setV (m : MachineState) (x : Reg) (v : Byte) : MachineState := { m with V := m.V.set x v }

/-- `I <- v` (R12, R23). -/
def MachineState.setI (m : MachineState) (v : Word) : MachineState := { m with I := v }

/-- `pc <- v` (R12, R25). -/
def MachineState.setPc (m : MachineState) (v : Word) : MachineState := { m with pc := v }

/-- `DT <- v` (R12, R26). -/
def MachineState.setDT (m : MachineState) (v : Byte) : MachineState := { m with DT := v }

/-- `ST <- v` (R12, R27). -/
def MachineState.setST (m : MachineState) (v : Byte) : MachineState := { m with ST := v }

/-- The key table replaced (R28). -/
def MachineState.setKeys (m : MachineState) (ks : Vector Byte 16) : MachineState := { m with keys := ks }

/-- The framebuffer replaced (R29). -/
def MachineState.setFb (m : MachineState) (fb : Framebuffer) : MachineState := { m with fb := fb }

/-- The memory replaced (R31). -/
def MachineState.setMemory (m : MachineState) (mem : Memory) : MachineState := { m with memory := mem }

/-- The stack and its pointer replaced (R24). -/
def MachineState.setStack (m : MachineState) (st : Vector Word 16) (sp : Fin 17) : MachineState :=
  { m with stack := st, sp := sp }

/-- VF, the flag register (R22). -/
def VF : Reg := 15

/-! ### The program counter -/

/-- `pc <- trunc_16(pc + 2)`: the advance of fetch (R72) and the taken skip (R120). -/
def MachineState.advance (m : MachineState) : MachineState := m.setPc (m.pc + 2#16)

/-- A skip that is taken when `c` holds (R120). -/
def MachineState.skipIf (m : MachineState) (c : Bool) : MachineState := if c then m.advance else m

/-- Back to the instruction being executed: `pc <- trunc_16(pc - 2)` (R207). -/
def MachineState.retreat (m : MachineState) : MachineState := m.setPc (m.pc - 2#16)

/-! ### The return stack -/

/-- `push(v)` (R121). -/
def MachineState.push (m : MachineState) (v : Word) : Effect :=
  if h : m.sp.val < 16 then .ok (m.setStack (m.stack.set m.sp.val v) ⟨m.sp.val + 1, by omega⟩)
  else .error .stackOverflow

/-- `pop()`: the popped value and the state after it; the slot keeps its value (R122). -/
def MachineState.pop (m : MachineState) : Except Fault (Word × MachineState) :=
  if h : 0 < m.sp.val then
    .ok (m.stack[m.sp.val - 1], m.setStack m.stack ⟨m.sp.val - 1, by omega⟩)
  else .error .stackUnderflow

/-! ### Memory -/

/-- `MemRead(a, 1)` of an address in range; the callers check the range first (R53). -/
def MachineState.byteAt (m : MachineState) (a : Nat) : Byte := Memory.read m.memory a

/-- The block range check: the `n` bytes from `I` up all exist, or the first that does not is the fault's detail
(R53, R185). Addresses are exact sums (R55). -/
def MachineState.checkBlock (m : MachineState) (n : Nat) : Except Fault Unit :=
  if n = 0 ∨ m.I.toNat + n ≤ memSize then .ok () else .error (.memoryOutOfRange (max m.I.toNat memSize))

/-- The `n` bytes from `I` up, after the check (R107, R187). -/
def MachineState.loadBlock (m : MachineState) (n : Nat) : Except Fault (List Byte) :=
  match m.checkBlock n with
  | .ok () => .ok (Memory.readList m.memory m.I.toNat n)
  | .error f => .error f

/-- The bytes `vs` stored from `I` up, after the check; nothing is stored when it fails (R184, R186). -/
def MachineState.storeBlock (m : MachineState) (vs : List Byte) : Effect :=
  match m.checkBlock vs.length with
  | .ok () => .ok (m.setMemory (Memory.writeList m.memory m.I.toNat vs))
  | .error f => .error f

/-- The word at `pc`, or the fetch fault with the first byte address out of range (R72). -/
def MachineState.fetchWord (m : MachineState) : Except Fault Word :=
  if m.pc.toNat + 1 < memSize then .ok (wordOfBytes (m.byteAt m.pc.toNat) (m.byteAt (m.pc.toNat + 1)))
  else .error (.memoryOutOfRange (max m.pc.toNat memSize))

/-! ### How an interpreter step ends -/

/-- The MachineState an instruction's pseudocode starts from: fetch has advanced `pc` (R13, R72). -/
def State.fetched (s : State) : MachineState := s.current.advance

/-- Taking a fault: the MachineState stays the one before the step, and the status holds the record (R224 to R226). The
opcode recorded is the word at the faulting `pc`, none for a fetch fault (log 10). There is no return from a fault
(R225). -/
def State.takeFault (s : State) (f : Fault) : State :=
  { s with
    status := .faulted
      { fault := f
        pc := s.current.pc
        opcode := match s.current.fetchWord with | .ok w => some w | .error _ => none } }

/-- An executed instruction leaves `m`, with `trace` a free value (R30; log 3). -/
def State.retire (s : State) (m : MachineState) : State :=
  { s with
    current := { m with trace := Config.traceText s.freeCount }
    freeCount := s.freeCount + 1 }

/-- The end of every meaning: the effect retired, or its fault taken (R231). -/
def State.finish (s : State) (e : Effect) : Result :=
  match e with
  | .ok m => .next (s.retire m)
  | .error f => .next (s.takeFault f)

end Sys2Proof.Machine
end

