-- ==== Sys2Proof/Machine/Boot.lean ====
section
/-! DEFINITION. Launching the machine (R262, R263) and placing one instruction where the next fetch reads it. -/

namespace Sys2Proof.Machine

/-- Power-on with a program: refused when it does not fit (R262), or when the history could hold nothing (R40; log 9). -/
def State.load (p : Params) : Result :=
  if romMax < p.rom.length then .refused (.romTooLong p.rom.length)
  else if p.historyCapacity = .bounded 0 then .refused .noHistoryCapacity
  else .next (State.powerOn p)

/-- Where the next fetch can read a whole word: `pc`, or `programStart` when `pc` has no two bytes. -/
def fetchPlace (pc : Word) : Word := if pc.toNat + 1 < memSize then pc else BitVec.ofNat 16 programStart

/-- `s` made ready so that its next step runs the instruction whose bytes are `bytes`: they stand at `pc`, the machine
is running, not paused and not rewinding, and one CPU tick waits in the channel, its random byte free (log 11). -/
def State.readyToRun (s : State) (bytes : List Byte) : State :=
  let place := fetchPlace s.current.pc
  { s with
    current := (s.current.setMemory (Memory.writeList s.current.memory place.toNat bytes)).setPc place
    paused := false
    rewind := 0
    status := .running
    pending := [.cpuTick (Config.randomByte s.freeCount)] }

end Sys2Proof.Machine
end

