-- ==== Sys2Proof/Machine/Flags.lean ====
section
/-! DEFINITION. The computations of the one flag, VF (R22): the wrap flag (R157), the bit shifted out (R160, R162) and
the collision flag (R107). -/

namespace Sys2Proof.Machine

/-- A Boolean as the value of VF. -/
def flagByte (b : Bool) : Byte := if b then 1#8 else 0#8

/-- 8XY4: 1 when the exact sum fits in 8 bits (R157; log 12). -/
def addFlag (a b : Byte) : Byte := flagByte (decide (a.toNat + b.toNat ≤ 0xFF))

/-- 8XY5 and 8XY7: 1 when `a - b` does not wrap (R157; log 12). -/
def subFlag (a b : Byte) : Byte := flagByte (decide (b.toNat ≤ a.toNat))

/-- 8XY6: the bit shifted out, bit 0 (R160). -/
def shrFlag (v : Byte) : Byte := v &&& 1#8

/-- 8XYE: the bit shifted out, bit 7 (R162). -/
def shlFlag (v : Byte) : Byte := (v >>> 7) &&& 1#8

end Sys2Proof.Machine
end

