-- ==== Sys2Proof/Machine/Operands.lean ====
section
/-! DEFINITION. The operand forms: the jump targets and index values that an instruction computes from its fields and
registers (R83, R180), a key operand, and blocks of registers. -/

namespace Sys2Proof.Machine

/-- `zext_16` of a 12-bit address immediate (R11, R83). -/
def addrWord (a : Addr12) : Word := a.setWidth 16

/-- `zext_16` of a byte (R11, R131). -/
def byteWord (b : Byte) : Word := b.setWidth 16

/-- The target of BNNN: V0 plus the address, not masked (R131). -/
def MachineState.offsetTarget (m : MachineState) (nnn : Addr12) : Word := byteWord (m.getV 0) + addrWord nnn

/-- FX1E's new index: `trunc_16(I + V[x])` (R182). -/
def MachineState.indexPlus (m : MachineState) (x : Reg) : Word := m.I + byteWord (m.getV x)

/-- FX29's new index: `trunc_16(0x050 + 5 · V[x])`, the register not masked to a nibble (R183). -/
def MachineState.glyphAddr (m : MachineState) (x : Reg) : Word :=
  BitVec.ofNat 16 (fontBase + glyphBytes * (m.getV x).toNat)

/-- The key number in `V[x]`, checked (R204, R205). -/
def MachineState.keyOperand (m : MachineState) (x : Reg) : Except Fault (Fin 16) :=
  if h : (m.getV x).toNat < 16 then .ok ⟨(m.getV x).toNat, h⟩ else .error (.keyIndexOutOfRange (m.getV x))

/-- The decimal digits of a byte: hundreds, tens, ones (R184). -/
def bcdDigits (v : Byte) : List Byte :=
  [BitVec.ofNat 8 (v.toNat / 100), BitVec.ofNat 8 (v.toNat / 10 % 10), BitVec.ofNat 8 (v.toNat % 10)]

/-- V0 to Vx, in order (R186). -/
def MachineState.regsUpTo (m : MachineState) (x : Reg) : List Byte := m.V.toList.take (x.val + 1)

/-- The registers from `i` up replaced by `vs`, in order (R187). -/
def loadRegs (V : Vector Byte 16) (i : Nat) (vs : List Byte) : Vector Byte 16 :=
  match vs with
  | [] => V
  | v :: rest => loadRegs (V.setIfInBounds i v) (i + 1) rest

end Sys2Proof.Machine
end

