-- ==== Sys2Proof/Machine/Arithmetic.lean ====
section
/-! DEFINITION. The meanings of register arithmetic and logic (R150 to R164). -/

namespace Sys2Proof.Machine

/-- A result written to Vx and after it a flag to VF: with X = 15 the flag survives (R158, R159, R161; log 13). -/
def MachineState.setResultThenFlag (m : MachineState) (x : Reg) (result flag : Byte) : MachineState :=
  (m.setV x result).setV VF flag

/-- 6XNN (R151). -/
def execLdImm (x : Reg) (nn : Byte) (s : State) : Result := s.finish (.ok (s.fetched.setV x nn))

/-- 7XNN, with no flag (R152). -/
def execAddImm (x : Reg) (nn : Byte) (s : State) : Result :=
  s.finish (.ok (s.fetched.setV x (s.fetched.getV x + nn)))

/-- 8XY0 (R153). -/
def execLdReg (x y : Reg) (s : State) : Result := s.finish (.ok (s.fetched.setV x (s.fetched.getV y)))

/-- 8XY1 (R154). -/
def execOrReg (x y : Reg) (s : State) : Result :=
  s.finish (.ok (s.fetched.setV x (s.fetched.getV x ||| s.fetched.getV y)))

/-- 8XY2 (R155). -/
def execAndReg (x y : Reg) (s : State) : Result :=
  s.finish (.ok (s.fetched.setV x (s.fetched.getV x &&& s.fetched.getV y)))

/-- 8XY3 (R156). -/
def execXorReg (x y : Reg) (s : State) : Result :=
  s.finish (.ok (s.fetched.setV x (s.fetched.getV x ^^^ s.fetched.getV y)))

/-- 8XY4 (R158). -/
def execAddReg (x y : Reg) (s : State) : Result :=
  s.finish (.ok (s.fetched.setResultThenFlag x (s.fetched.getV x + s.fetched.getV y)
    (addFlag (s.fetched.getV x) (s.fetched.getV y))))

/-- 8XY5 (R159). -/
def execSub (x y : Reg) (s : State) : Result :=
  s.finish (.ok (s.fetched.setResultThenFlag x (s.fetched.getV x - s.fetched.getV y)
    (subFlag (s.fetched.getV x) (s.fetched.getV y))))

/-- 8XY7 (R161). -/
def execSubn (x y : Reg) (s : State) : Result :=
  s.finish (.ok (s.fetched.setResultThenFlag x (s.fetched.getV y - s.fetched.getV x)
    (subFlag (s.fetched.getV y) (s.fetched.getV x))))

/-- 8XY6's two statements in order: the shift reads Vx after the flag is written (R160; log 13). -/
def MachineState.shiftRight (m : MachineState) (x : Reg) : MachineState :=
  let flagged := m.setV VF (shrFlag (m.getV x))
  flagged.setV x (flagged.getV x >>> 1)

/-- 8XYE's two statements in order: the shift reads Vx after the flag is written (R162; log 13). -/
def MachineState.shiftLeft (m : MachineState) (x : Reg) : MachineState :=
  let flagged := m.setV VF (shlFlag (m.getV x))
  flagged.setV x (flagged.getV x <<< 1)

/-- 8XY6; Vy is not read (R160). -/
def execShr (x _y : Reg) (s : State) : Result := s.finish (.ok (s.fetched.shiftRight x))

/-- 8XYE; Vy is not read (R162). -/
def execShl (x _y : Reg) (s : State) : Result := s.finish (.ok (s.fetched.shiftLeft x))

/-- CXNN, with `draw_random()` the free byte of the step (R164; log 2). -/
def execRnd (x : Reg) (nn : Byte) (s : State) : Result := s.finish (.ok (s.fetched.setV x (s.draw &&& nn)))

end Sys2Proof.Machine
end

