-- ==== Sys2Proof/Machine/ControlFlow.lean ====
section
/-! DEFINITION. The meanings of the control transfers (R120 to R133). -/

namespace Sys2Proof.Machine

/-- `push(pc); pc <- zext_16(NNN)`, shared by CALL and SYS (R124, R126). -/
def MachineState.callTo (m : MachineState) (nnn : Addr12) : Effect :=
  match m.push m.pc with
  | .ok m' => .ok (m'.setPc (addrWord nnn))
  | .error f => .error f

/-- `pc <- pop()` (R123). -/
def MachineState.returnPopped (m : MachineState) : Effect :=
  match m.pop with
  | .ok (target, m') => .ok (m'.setPc target)
  | .error f => .error f

/-- 00EE (R123). -/
def execRet (s : State) : Result := s.finish s.fetched.returnPopped

/-- 0NNN, a plain call (R124, R229). -/
def execSys (nnn : Addr12) (s : State) : Result := s.finish (s.fetched.callTo nnn)

/-- 1NNN (R125). -/
def execJp (nnn : Addr12) (s : State) : Result := s.finish (.ok (s.fetched.setPc (addrWord nnn)))

/-- 2NNN (R126). -/
def execCall (nnn : Addr12) (s : State) : Result := s.finish (s.fetched.callTo nnn)

/-- 3XNN (R127). -/
def execSeImm (x : Reg) (nn : Byte) (s : State) : Result :=
  s.finish (.ok (s.fetched.skipIf (s.fetched.getV x == nn)))

/-- 4XNN (R128). -/
def execSneImm (x : Reg) (nn : Byte) (s : State) : Result :=
  s.finish (.ok (s.fetched.skipIf (s.fetched.getV x != nn)))

/-- 5XY0 (R129). -/
def execSeReg (x y : Reg) (s : State) : Result :=
  s.finish (.ok (s.fetched.skipIf (s.fetched.getV x == s.fetched.getV y)))

/-- 9XY0 (R130). -/
def execSneReg (x y : Reg) (s : State) : Result :=
  s.finish (.ok (s.fetched.skipIf (s.fetched.getV x != s.fetched.getV y)))

/-- BNNN (R131). -/
def execJpV0 (nnn : Addr12) (s : State) : Result :=
  s.finish (.ok (s.fetched.setPc (s.fetched.offsetTarget nnn)))

end Sys2Proof.Machine
end

