-- ==== Sys2Proof/Machine/Display.lean ====
section
/-! DEFINITION. The sprite engine (R100 to R105) and the two instructions that use it, CLS and DRW (R106, R107). -/

namespace Sys2Proof.Machine

/-- A pixel; a place outside the grid reads as not lit. -/
def pixelAt (fb : Framebuffer) (row col : Nat) : Bool :=
  if h : row < 32 ∧ col < 64 then fb[row][col] else false

/-- One sprite pixel onto (`row`, `col`): clipped outside the grid, else a collision recorded when both are 1, and the
pixel XORed (R104, R105). The Boolean is the collision so far. -/
def drawPixel (st : Framebuffer × Bool) (row col : Nat) (bit : Bool) : Framebuffer × Bool :=
  if h : row < 32 ∧ col < 64 then
    (st.1.set row (st.1[row].set col (st.1[row][col] ^^ bit)), st.2 || (bit && st.1[row][col]))
  else st

/-- One sprite row from column `x0` of `row`: bit 7 is the leftmost pixel (R103). -/
def drawRow (st : Framebuffer × Bool) (x0 row : Nat) (b : Byte) : Framebuffer × Bool :=
  (List.range 8).foldl (fun st c => drawPixel st row (x0 + c) (b.getLsbD (7 - c))) st

/-- The sprite rows from (`row`, `x0`) down. -/
def drawRows (st : Framebuffer × Bool) (x0 row : Nat) (rows : List Byte) : Framebuffer × Bool :=
  match rows with
  | [] => st
  | b :: rest => drawRows (drawRow st x0 row b) x0 (row + 1) rest

/-- `draw_sprite`: the origin wrapped modulo 63 and 31, then the rows; answers the framebuffer and the collision
(R102, R105). -/
def drawSprite (fb : Framebuffer) (originX originY : Byte) (rows : List Byte) : Framebuffer × Bool :=
  drawRows (fb, false) (originX.toNat % wrapX) (originY.toNat % wrapY) rows

/-- 00E0 (R106). -/
def execCls (s : State) : Result := s.finish (.ok (s.fetched.setFb blankFramebuffer))

/-- DXYN's effect: the coordinates are read before VF is written, and VF always is (R107). -/
def MachineState.draw (m : MachineState) (x y : Reg) (n : Nat) : Effect :=
  match m.loadBlock n with
  | .ok rows =>
    let drawn := drawSprite m.fb (m.getV x) (m.getV y) rows
    .ok ((m.setFb drawn.1).setV VF (flagByte drawn.2))
  | .error f => .error f

/-- DXYN (R107). -/
def execDrw (x y : Reg) (n : Fin 16) (s : State) : Result := s.finish (s.fetched.draw x y n.val)

end Sys2Proof.Machine
end

