-- ==== Sys2Proof/Machine/IndexMemory.lean ====
section
/-! DEFINITION. The meanings of the index register and memory transfers (R180 to R187). -/

namespace Sys2Proof.Machine

/-- ANNN (R181). -/
def execLdI (nnn : Addr12) (s : State) : Result := s.finish (.ok (s.fetched.setI (addrWord nnn)))

/-- FX1E, with no flag (R182). -/
def execAddI (x : Reg) (s : State) : Result := s.finish (.ok (s.fetched.setI (s.fetched.indexPlus x)))

/-- FX29 (R183). -/
def execLdF (x : Reg) (s : State) : Result := s.finish (.ok (s.fetched.setI (s.fetched.glyphAddr x)))

/-- FX33 (R184). -/
def execLdB (x : Reg) (s : State) : Result := s.finish (s.fetched.storeBlock (bcdDigits (s.fetched.getV x)))

/-- FX55; I is not changed (R186). -/
def execLdMemVx (x : Reg) (s : State) : Result := s.finish (s.fetched.storeBlock (s.fetched.regsUpTo x))

/-- V0 to Vx loaded from the block at I (R187). -/
def MachineState.loadUpTo (m : MachineState) (x : Reg) : Effect :=
  match m.loadBlock (x.val + 1) with
  | .ok vs => .ok { m with V := loadRegs m.V 0 vs }
  | .error f => .error f

/-- FX65; I is not changed (R187). -/
def execLdVxMem (x : Reg) (s : State) : Result := s.finish (s.fetched.loadUpTo x)

end Sys2Proof.Machine
end

