-- ==== Sys2Proof/Machine/KeysTimers.lean ====
section
/-! DEFINITION. The key table and the timers: the operations of their events (R201, R202, R210) and the meanings of
the instructions that reach them (R204 to R209). -/

namespace Sys2Proof.Machine

/-! ### The devices' own operations -/

/-- Key `k` is active: its counter is not 0 (R200). -/
def MachineState.keyActive (m : MachineState) (k : Fin 16) : Bool := m.keys[k] != 0#8

/-- The lowest-indexed active key, if any (R207). -/
def MachineState.lowestActive (m : MachineState) : Option (Fin 16) := (List.finRange 16).find? m.keyActive

/-- `press_key(k)`: all 16 counters cleared, then counter `k` set (R201). -/
def MachineState.pressKey (m : MachineState) (k : Fin 16) : MachineState :=
  m.setKeys ((Vector.replicate 16 0#8).set k keyPressValue)

/-- One counter's decay: one less while it is not 0 (R202). -/
def decayed (v : Byte) : Byte := if v = 0#8 then 0#8 else v - 1#8

/-- `key_decay()`: every counter decays (R202). -/
def MachineState.keyDecay (m : MachineState) : MachineState :=
  m.setKeys ((List.finRange 16).foldl (fun ks (j : Fin 16) => ks.set j (decayed ks[j])) m.keys)

/-- `timer_tick()`: DT counts down to 0 and ST stays (R210, R211). -/
def MachineState.timerTick (m : MachineState) : MachineState := m.setDT (decayed m.DT)

/-! ### Meanings -/

/-- EX9E's effect (R204). -/
def MachineState.skipIfKey (m : MachineState) (x : Reg) : Effect :=
  match m.keyOperand x with
  | .ok k => .ok (m.skipIf (m.keyActive k))
  | .error f => .error f

/-- EXA1's effect (R205). -/
def MachineState.skipIfNotKey (m : MachineState) (x : Reg) : Effect :=
  match m.keyOperand x with
  | .ok k => .ok (m.skipIf (!m.keyActive k))
  | .error f => .error f

/-- EX9E (R204). -/
def execSkp (x : Reg) (s : State) : Result := s.finish (s.fetched.skipIfKey x)

/-- EXA1 (R205). -/
def execSknp (x : Reg) (s : State) : Result := s.finish (s.fetched.skipIfNotKey x)

/-- FX07 (R206). -/
def execLdVxDT (x : Reg) (s : State) : Result := s.finish (.ok (s.fetched.setV x s.fetched.DT))

/-- FX0A's effect: the lowest active key, or back to this instruction (R207). -/
def MachineState.waitKey (m : MachineState) (x : Reg) : MachineState :=
  match m.lowestActive with
  | some k => m.setV x (BitVec.ofNat 8 k.val)
  | none => m.retreat

/-- FX0A, a busy-wait (R207). -/
def execLdVxK (x : Reg) (s : State) : Result := s.finish (.ok (s.fetched.waitKey x))

/-- FX15 (R208). -/
def execLdDTVx (x : Reg) (s : State) : Result := s.finish (.ok (s.fetched.setDT (s.fetched.getV x)))

/-- FX18 (R209). -/
def execLdSTVx (x : Reg) (s : State) : Result := s.finish (.ok (s.fetched.setST (s.fetched.getV x)))

end Sys2Proof.Machine
end

