-- ==== Sys2Proof/Machine/Scheduler.lean ====
section
/-! DEFINITION. The interpreter step (R231), the history (R246), the handlers of the events (R234 to R245) and the
order in which they are delivered (R233). -/

namespace Sys2Proof.Machine

/-! ### The interpreter step -/

/-- The fault of a word that is not an instruction (R77, R78). -/
def rejectFault (w : Word) (e : Reject) : Fault :=
  match e with
  | .illegalGroup8 _ | .illegalGroupE _ | .illegalGroupF _ | .tooShort => .illegalInstruction w
  | .noGroup _ => .dispatchUnreachable w

/-- `interp_step`, with `draw_random()` in `s.draw`: the fetch check, then decode, then the instruction (R72, R223,
R231). -/
def State.interpStep (s : State) : Result :=
  match s.current.fetchWord with
  | .error f => .next (s.takeFault f)
  | .ok w =>
    match decodeWord w with
    | .error e => .next (s.takeFault (rejectFault w e))
    | .ok i => exec i s

/-! ### The history -/

/-- `push_history(m)`: appended as the most recent entry; at a finite capacity that is reached the oldest is dropped
first (R246). -/
def pushHistory (cap : HistoryCapacity) (h : List MachineState) (m : MachineState) : List MachineState :=
  match cap with
  | .unbounded => h ++ [m]
  | .bounded c => if h.length = c then h.drop 1 ++ [m] else h ++ [m]

/-- Push `current`, then step it with the random byte `r`: the forward branch of a CPU tick and StepForward (R234,
R240). The push stays when the step faults. -/
def State.forward (s : State) (r : Byte) : Result :=
  State.interpStep { s with history := pushHistory s.params.historyCapacity s.history s.current, draw := r }

/-- The most recent snapshot becomes current and leaves the history; nothing when there is none (R234, R242). -/
def State.popHistory (s : State) : State :=
  match s.history.getLast? with
  | some m => { s with current := m, history := s.history.dropLast }
  | none => s

/-! ### Events -/

/-- `CpuTick(r)`: rewind, else forward unless paused (R234). -/
def State.onCpuTick (s : State) (r : Byte) : Result :=
  if 0 < s.rewind ∧ s.history ≠ [] then .next s.popHistory
  else if s.paused then .next s
  else s.forward r

/-- The Reset event: the same ROM and FONT reloaded, the history discarded, `paused` unchanged (R239). -/
def State.onReset (s : State) : State :=
  { s with current := initialState s.params, history := [], rewind := 0 }

/-- The handler of an event in status Running (R234 to R244). -/
def State.handle (s : State) (e : Event) : Result :=
  match e with
  | .cpuTick r => s.onCpuTick r
  | .timerTick => .next { s with current := s.current.timerTick }
  | .keyDecayTick => .next { s with current := s.current.keyDecay }
  | .keyPress k => .next { s with current := s.current.pressKey k }
  | .setPaused b => .next { s with paused := b }
  | .reset => .next s.onReset
  | .stepForward r => s.forward r
  | .stepBack => .next s.popHistory
  | .beginRewind n => .next { s with rewind := n }
  | .rewindDecay => .next { s with rewind := s.rewind - 1 }
  | .resize => .next s
  | .quit => .next { s with status := .quit }

/-- `event_step` (R8): in status Faulted or Quit every event leaves the state unchanged (R245). -/
def State.eventStep (s : State) (e : Event) : Result :=
  match s.status with
  | .running => s.handle e
  | .faulted _ => .next s
  | .quit => .next s

/-- A run over a finite event sequence (R233). -/
def State.runEvents (s : State) (es : List Event) : Result :=
  match es with
  | [] => .next s
  | e :: rest =>
    match s.eventStep e with
    | .next t => State.runEvents t rest
    | .fault f => .fault f
    | .refused r => .refused r

/-- A run over an infinite event sequence, after its first `n` events (R233). -/
def State.runStream (s : State) (events : Nat → Event) (n : Nat) : Result :=
  s.runEvents ((List.range n).map events)

/-- The next event: the channel's first; with nothing waiting, what the environment enqueues, an event or nothing, free
at each step (R233; log 1). -/
def State.nextEvent (s : State) : Option Event :=
  match s.pending with
  | [] => Config.arrival s.stepCount
  | e :: _ => some e

/-- The state with its next event taken off the channel, and the step counted. -/
def State.dequeued (s : State) : State := { s with pending := s.pending.tail, stepCount := s.stepCount + 1 }

/-- The next event handled; with no event nothing happens (R233). -/
def State.deliver (s : State) : Result :=
  match s.nextEvent with
  | some e => s.dequeued.eventStep e
  | none => .next s.dequeued

end Sys2Proof.Machine
end

