-- ==== Sys2Proof/Machine/Step.lean ====
section
/-! DEFINITION. One step of the machine: the next event, if any, is taken off the channel and handled (R8, R233). -/

namespace Sys2Proof.Machine

/-- One step is at most one event (R9). -/
def step (s : State) : Host.Outcome State Fault Refusal := s.deliver

/-- `s` with the instruction word `w` placed so that `step` fetches and runs exactly it; `w` is numbered as the opcode
table numbers it, and its bits above `nbits` are zero (log 11). -/
def State.withFetchWord (s : State) (nbits w : Nat) : State :=
  s.readyToRun (bytesOfWord (BitVec.ofNat 16 (w % 2 ^ nbits)))

end Sys2Proof.Machine
end

