-- ==== Sys2Proof/Machine/Output.lean ====
section
/-! DEFINITION. What the block exposes after every event (R250). -/

namespace Sys2Proof.Machine

/-- "a 64×32 bitmap (0/1 per cell) plus scalar diagnostics (opcode, registers, PC, I, timers, cycle count)" (R250). -/
structure Output where
  bitmap : Framebuffer
  opcode : Word
  registers : Vector Byte 16
  pc : Word
  I : Word
  DT : Byte
  ST : Byte
  cycleCount : Nat
  deriving DecidableEq, Repr

/-- The output of a state: the fields of `current`; "opcode" and "cycle count" are free values (log 4). -/
def State.output (s : State) : Output :=
  { bitmap := s.current.fb
    opcode := Config.diagnosticOpcode s.freeCount
    registers := s.current.V
    pc := s.current.pc
    I := s.current.I
    DT := s.current.DT
    ST := s.current.ST
    cycleCount := Config.diagnosticCycles s.freeCount }

end Sys2Proof.Machine
end

