-- ==== Sys2Proof/Safety.lean ====
section
/-! DEFINITION. What counts as a safe state and a safe run, in the terms that claims use: the invariants of the
MachineState and of the scheduler, the fault an instruction raises, and what one step leaves unchanged. -/

namespace Sys2Proof.Machine

/-! ### Invariants -/

/-- R203: every counter is 0, 1 or 2, and at most one is not 0. -/
def KeysOk (keys : Vector Byte 16) : Prop :=
  (∀ k : Fin 16, keys[k].toNat ≤ 2) ∧ ∀ j k : Fin 16, keys[j] ≠ 0#8 → keys[k] ≠ 0#8 → j = k

/-- The invariant of a MachineState: memory in canonical form and the key table as R203 says. -/
def MachineState.Inv (m : MachineState) : Prop := Memory.wf m.memory = true ∧ KeysOk m.keys

/-- The launch premises on the parameters: the program fits (R262) and a finite capacity is not 0 (R40). -/
def Params.Ok (p : Params) : Prop := p.rom.length ≤ romMax ∧ p.historyCapacity ≠ .bounded 0

/-- A history within its capacity (R40, R246). -/
def HistoryFits (cap : HistoryCapacity) (h : List MachineState) : Prop :=
  match cap with
  | .unbounded => True
  | .bounded c => h.length ≤ c

/-- The invariant of a whole state: `current` and every snapshot are well-formed MachineStates, and the history fits. -/
def State.Inv (s : State) : Prop :=
  Params.Ok s.params ∧ s.current.Inv ∧ (∀ m ∈ s.history, m.Inv) ∧ HistoryFits s.params.historyCapacity s.history

/-- The status is not Faulted: "a faulted state is never a normal end of a run" (R225). -/
def State.Safe (s : State) : Prop := ∀ r, s.status ≠ .faulted r

/-! ### The fault of an instruction -/

/-- The execute-time check of each instruction, the "Exceptions" line of its rule: the fault it raises in `m`, the
MachineState at its address (R221, R222). -/
def MachineState.faultOf (m : MachineState) (i : Instr) : Option Fault :=
  match i with
  | .sys _ | .call _ => if m.sp = 16 then some .stackOverflow else none
  | .ret => if m.sp = 0 then some .stackUnderflow else none
  | .drw _ _ n =>
    if 0 < n.val ∧ 0xFFF < m.I.toNat + n.val - 1 then some (.memoryOutOfRange (max m.I.toNat 0x1000)) else none
  | .ldB _ => if 0xFFF < m.I.toNat + 2 then some (.memoryOutOfRange (max m.I.toNat 0x1000)) else none
  | .ldMemVx x | .ldVxMem x =>
    if 0xFFF < m.I.toNat + x.val then some (.memoryOutOfRange (max m.I.toNat 0x1000)) else none
  | .skp x | .sknp x => if 15 < (m.getV x).toNat then some (.keyIndexOutOfRange (m.getV x)) else none
  | .cls | .jp _ | .seImm _ _ | .sneImm _ _ | .seReg _ _ | .ldImm _ _ | .addImm _ _ | .ldReg _ _ | .orReg _ _
  | .andReg _ _ | .xorReg _ _ | .addReg _ _ | .sub _ _ | .shr _ _ | .subn _ _ | .shl _ _ | .sneReg _ _ | .ldI _
  | .jpV0 _ | .rnd _ _ | .ldVxDT _ | .ldVxK _ | .ldDTVx _ | .ldSTVx _ | .addI _ | .ldF _ => none

/-- The state after an event whose interpreter step faulted: only the status differs, and it holds the record (R226). -/
def State.faultedWith (s : State) (f : Fault) (opcode : Option Word) : State :=
  { s with status := .faulted { fault := f, pc := s.current.pc, opcode := opcode } }

/-! ### What stays as it was -/

/-- `exec i` answers a next state that satisfies `P`. -/
def Completes (i : Instr) (s : State) (P : State → Prop) : Prop := ∃ t, exec i s = .next t ∧ P t

/-- The scheduler's own fields, the channel and its counter, the parameters and the draw are unchanged. -/
def SameScheduler (s t : State) : Prop :=
  t.history = s.history ∧ t.paused = s.paused ∧ t.rewind = s.rewind ∧ t.status = s.status ∧
    t.pending = s.pending ∧ t.stepCount = s.stepCount ∧ t.params = s.params ∧ t.draw = s.draw

/-- Every byte of memory reads as before. -/
def SameMemory (s t : State) : Prop := ∀ a, Memory.read t.current.memory a = Memory.read s.current.memory a

/-- Every byte of memory outside the `n` bytes from `base` up reads as before. -/
def SameMemoryOutside (base n : Nat) (s t : State) : Prop :=
  ∀ a, a < base ∨ base + n ≤ a → Memory.read t.current.memory a = Memory.read s.current.memory a

/-- Every general register is unchanged. -/
def SameRegs (s t : State) : Prop := ∀ r : Reg, t.current.getV r = s.current.getV r

/-- I, the stack, its pointer, the timers and the keys are unchanged. -/
def SameSpecial (s t : State) : Prop :=
  t.current.I = s.current.I ∧ t.current.stack = s.current.stack ∧ t.current.sp = s.current.sp ∧
    t.current.DT = s.current.DT ∧ t.current.ST = s.current.ST ∧ t.current.keys = s.current.keys

/-- Everything but the general registers, `pc`, `trace` and the free-value counter is unchanged. -/
def OnlyRegs (s t : State) : Prop :=
  SameSpecial s t ∧ t.current.fb = s.current.fb ∧ SameMemory s t ∧ SameScheduler s t

/-- A register-only instruction completes with the registers `f`, `pc` past it, and nothing else changed. -/
def RegWrite (i : Instr) (s : State) (f : Reg → Byte) : Prop :=
  Completes i s fun t => t.current.pc = s.current.pc + 2#16 ∧ (∀ r, t.current.getV r = f r) ∧ OnlyRegs s t

/-- An instruction that moves only `pc`: it completes with `pc` at `target` and nothing else changed. -/
def PcWrite (i : Instr) (s : State) (target : Word) : Prop :=
  Completes i s fun t => t.current.pc = target ∧ SameRegs s t ∧ OnlyRegs s t

/-- An instruction that writes only I: it completes with I as given, `pc` past it, and nothing else changed. -/
def IndexWrite (i : Instr) (s : State) (v : Word) : Prop :=
  Completes i s fun t =>
    t.current.pc = s.current.pc + 2#16 ∧ t.current.I = v ∧ SameRegs s t ∧ t.current.stack = s.current.stack ∧
      t.current.sp = s.current.sp ∧ t.current.DT = s.current.DT ∧ t.current.ST = s.current.ST ∧
      t.current.keys = s.current.keys ∧ t.current.fb = s.current.fb ∧ SameMemory s t ∧ SameScheduler s t

/-- Every word with these bits under this mask decodes to the given instruction (R76). -/
def Encoded (mask bits : Word) (f : Word → Instr) : Prop := ∀ w : Word, w &&& mask = bits → decodeWord w = .ok (f w)

/-- The sprite's pixel that lands on (`row`, `col`) from the wrapped origin (`x0`, `y0`), 0 where none does (R103). -/
def spriteBit (x0 y0 : Nat) (rows : List Byte) (row col : Nat) : Bool :=
  decide (y0 ≤ row ∧ row < y0 + rows.length ∧ x0 ≤ col ∧ col < x0 + 8) &&
    (rows.getD (row - y0) 0#8).getLsbD (7 - (col - x0))

/-- The registers that an instruction's rule names as written (R21, R22). -/
def writesReg (i : Instr) (r : Reg) : Bool :=
  match i with
  | .ldImm x _ | .addImm x _ | .ldReg x _ | .orReg x _ | .andReg x _ | .xorReg x _ | .rnd x _ | .ldVxDT x
  | .ldVxK x => r == x
  | .addReg x _ | .sub x _ | .shr x _ | .subn x _ | .shl x _ => r == x || r == VF
  | .drw _ _ _ => r == VF
  | .ldVxMem x => decide (r ≤ x)
  | .cls | .ret | .sys _ | .jp _ | .call _ | .seImm _ _ | .sneImm _ _ | .seReg _ _ | .sneReg _ _ | .ldI _
  | .jpV0 _ | .skp _ | .sknp _ | .ldDTVx _ | .ldSTVx _ | .addI _ | .ldF _ | .ldB _ | .ldMemVx _ => false

/-! ### Stores over the next instruction -/

/-- V0 to Vx, the bytes that FX55 stores, in order (R186). -/
def storedRegisters (m : MachineState) (x : Reg) : List Byte :=
  (List.range (x.val + 1)).map fun j => m.getV (Fin.ofNat 16 j)

/-- The hundreds, tens and ones of Vx, the bytes that FX33 stores, in order (R184). -/
def storedDigits (m : MachineState) (x : Reg) : List Byte :=
  [BitVec.ofNat 8 ((m.getV x).toNat / 100), BitVec.ofNat 8 ((m.getV x).toNat / 10 % 10),
    BitVec.ofNat 8 ((m.getV x).toNat % 10)]

/-- What address `a` holds after the bytes `vs` are stored from I up: the stored byte inside the block, what it held
outside (R184, R186). -/
def byteAfterStore (m : MachineState) (vs : List Byte) (a : Nat) : Byte :=
  if m.I.toNat ≤ a ∧ a < m.I.toNat + vs.length then vs.getD (a - m.I.toNat) 0#8 else Memory.read m.memory a

/-- The word at the instruction after the one at `pc`, after such a store (R61, R70). -/
def fetchedAfterStore (m : MachineState) (vs : List Byte) : Word :=
  wordOfBytes (byteAfterStore m vs (m.pc + 2#16).toNat) (byteAfterStore m vs ((m.pc + 2#16).toNat + 1))

/-! ### Event sequences -/

/-- The events R247 admits between the first forward tick and the last rewind tick: CPU ticks, timer ticks, key-decay
ticks and key presses. -/
def Event.inRewindSpan (e : Event) : Bool :=
  match e with
  | .cpuTick _ | .timerTick | .keyDecayTick | .keyPress _ => true
  | .setPaused _ | .reset | .stepForward _ | .stepBack | .beginRewind _ | .rewindDecay | .resize | .quit => false

/-- A CPU tick. -/
def Event.isCpuTick (e : Event) : Bool :=
  match e with
  | .cpuTick _ => true
  | .timerTick | .keyDecayTick | .keyPress _ | .setPaused _ | .reset | .stepForward _ | .stepBack | .beginRewind _
  | .rewindDecay | .resize | .quit => false

/-- How many CPU ticks a sequence holds. -/
def cpuTicks (es : List Event) : Nat := es.countP Event.isCpuTick

/-- The capacity leaves room for `n` snapshots (R247). -/
def HasRoom (cap : HistoryCapacity) (n : Nat) : Prop :=
  match cap with
  | .unbounded => True
  | .bounded c => n ≤ c

/-- The next event makes an interpreter step: StepForward, or a CPU tick that neither rewinds nor is paused
(R234, R240). -/
def State.runsInstruction (s : State) : Bool :=
  match s.status, s.nextEvent with
  | .running, some (.cpuTick _) => !(decide (0 < s.rewind) && !s.history.isEmpty) && !s.paused
  | .running, some (.stepForward _) => true
  | _, _ => false

/-- The next event restores the most recent snapshot: StepBack, or a CPU tick that rewinds (R234, R242). -/
def State.restores (s : State) : Bool :=
  match s.status, s.nextEvent with
  | .running, some (.cpuTick _) => decide (0 < s.rewind) && !s.history.isEmpty
  | .running, some .stepBack => !s.history.isEmpty
  | _, _ => false

/-- The instruction at `pc`, if the two bytes exist and are one. -/
def MachineState.nextInstr (m : MachineState) : Option Instr :=
  match m.fetchWord with
  | .ok w => match decodeWord w with | .ok i => some i | .error _ => none
  | .error _ => none

/-- The random byte an event carries. -/
def Event.randomByte (e : Event) : Byte :=
  match e with
  | .cpuTick r | .stepForward r => r
  | .timerTick | .keyDecayTick | .keyPress _ | .setPaused _ | .reset | .stepBack | .beginRewind _ | .rewindDecay
  | .resize | .quit => 0#8

/-- The state in which an interpreter step runs: the event taken off, `current` pushed, the random byte latched. -/
def State.pushed (s : State) : State :=
  { s.dequeued with
    history := pushHistory s.params.historyCapacity s.history s.current
    draw := s.nextEvent.elim s.draw Event.randomByte }

end Sys2Proof.Machine
end

