-- ==== Sys2Proof/Certificates/Slice0/Obligations.lean ====
section
/-! DEFINITION. The statements for the provers, written from the rules of spec/. "Derived" ones rest on a decision the
spec marks as its own (92_eei_decisions.md) or on an inference, and say so in their docstring. -/

open Sys2Proof
open Sys2Proof.Machine

/-! ### Encoding -/

/-- Words of 95_test_vectors.md section 2 decode as listed there (a sanity statement). -/
def Obligations.SpecWordsDecode : Prop :=
  decodeWord 0x00E0#16 = .ok .cls ∧ decodeWord 0x00E1#16 = .ok (.sys 0x0E1#12) ∧
  decodeWord 0x01E0#16 = .ok (.sys 0x1E0#12) ∧ decodeWord 0x5121#16 = .ok (.seReg 1 2) ∧
  decodeWord 0x912F#16 = .ok (.sneReg 1 2) ∧ decodeWord 0x812E#16 = .ok (.shl 1 2) ∧
  decodeWord 0xD120#16 = .ok (.drw 1 2 0) ∧ decodeWord 0xE1A1#16 = .ok (.sknp 1) ∧
  decodeWord 0xF165#16 = .ok (.ldVxMem 1) ∧ decodeWord 0x8128#16 = .error (.illegalGroup8 0x8128#16) ∧
  decodeWord 0xE19F#16 = .error (.illegalGroupE 0xE19F#16) ∧ decodeWord 0xF108#16 = .error (.illegalGroupF 0xF108#16) ∧
  decode [0x1A#8, 0xBC#8, 0x00#8] = .ok (.jp 0xABC#12, [0x00#8])

/-- Every word that a row of the opcode map matches decodes to that row's instruction, its operands the fields of the
word (R76). The rows of SYS, SE Vx, Vy and SNE Vx, Vy rest on the spec's own decisions D2 and D3 (R74, R75; log 14): SYS
takes every word of group 0 that is not CLS or RET, and groups 5 and 9 do not examine the low nibble. -/
def Obligations.OpcodeMapRowsDecode : Prop :=
  Encoded 0xFFFF#16 0x00E0#16 (fun _ => .cls) ∧
  Encoded 0xFFFF#16 0x00EE#16 (fun _ => .ret) ∧
  (∀ w : Word, w &&& 0xF000#16 = 0x0000#16 → w ≠ 0x00E0#16 → w ≠ 0x00EE#16 → decodeWord w = .ok (.sys (fieldNNN w))) ∧
  Encoded 0xF000#16 0x1000#16 (fun w => .jp (fieldNNN w)) ∧
  Encoded 0xF000#16 0x2000#16 (fun w => .call (fieldNNN w)) ∧
  Encoded 0xF000#16 0x3000#16 (fun w => .seImm (fieldX w) (fieldNN w)) ∧
  Encoded 0xF000#16 0x4000#16 (fun w => .sneImm (fieldX w) (fieldNN w)) ∧
  Encoded 0xF000#16 0x5000#16 (fun w => .seReg (fieldX w) (fieldY w)) ∧
  Encoded 0xF000#16 0x6000#16 (fun w => .ldImm (fieldX w) (fieldNN w)) ∧
  Encoded 0xF000#16 0x7000#16 (fun w => .addImm (fieldX w) (fieldNN w)) ∧
  Encoded 0xF00F#16 0x8000#16 (fun w => .ldReg (fieldX w) (fieldY w)) ∧
  Encoded 0xF00F#16 0x8001#16 (fun w => .orReg (fieldX w) (fieldY w)) ∧
  Encoded 0xF00F#16 0x8002#16 (fun w => .andReg (fieldX w) (fieldY w)) ∧
  Encoded 0xF00F#16 0x8003#16 (fun w => .xorReg (fieldX w) (fieldY w)) ∧
  Encoded 0xF00F#16 0x8004#16 (fun w => .addReg (fieldX w) (fieldY w)) ∧
  Encoded 0xF00F#16 0x8005#16 (fun w => .sub (fieldX w) (fieldY w)) ∧
  Encoded 0xF00F#16 0x8006#16 (fun w => .shr (fieldX w) (fieldY w)) ∧
  Encoded 0xF00F#16 0x8007#16 (fun w => .subn (fieldX w) (fieldY w)) ∧
  Encoded 0xF00F#16 0x800E#16 (fun w => .shl (fieldX w) (fieldY w)) ∧
  Encoded 0xF000#16 0x9000#16 (fun w => .sneReg (fieldX w) (fieldY w)) ∧
  Encoded 0xF000#16 0xA000#16 (fun w => .ldI (fieldNNN w)) ∧
  Encoded 0xF000#16 0xB000#16 (fun w => .jpV0 (fieldNNN w)) ∧
  Encoded 0xF000#16 0xC000#16 (fun w => .rnd (fieldX w) (fieldNN w)) ∧
  Encoded 0xF000#16 0xD000#16 (fun w => .drw (fieldX w) (fieldY w) (fieldN w).toFin) ∧
  Encoded 0xF0FF#16 0xE09E#16 (fun w => .skp (fieldX w)) ∧
  Encoded 0xF0FF#16 0xE0A1#16 (fun w => .sknp (fieldX w)) ∧
  Encoded 0xF0FF#16 0xF007#16 (fun w => .ldVxDT (fieldX w)) ∧
  Encoded 0xF0FF#16 0xF00A#16 (fun w => .ldVxK (fieldX w)) ∧
  Encoded 0xF0FF#16 0xF015#16 (fun w => .ldDTVx (fieldX w)) ∧
  Encoded 0xF0FF#16 0xF018#16 (fun w => .ldSTVx (fieldX w)) ∧
  Encoded 0xF0FF#16 0xF01E#16 (fun w => .addI (fieldX w)) ∧
  Encoded 0xF0FF#16 0xF029#16 (fun w => .ldF (fieldX w)) ∧
  Encoded 0xF0FF#16 0xF033#16 (fun w => .ldB (fieldX w)) ∧
  Encoded 0xF0FF#16 0xF055#16 (fun w => .ldMemVx (fieldX w)) ∧
  Encoded 0xF0FF#16 0xF065#16 (fun w => .ldVxMem (fieldX w))

/-- Decoding the two bytes that encode a well-formed instruction gives it back, every operand at every value, and
leaves the bytes after them; so encoding is injective (30_encoding.md sections 1, 2 and 4). -/
def Obligations.DecodeOfEncode : Prop :=
  ∀ (i : Instr) (rest : List Byte), i.wf = true → decode (encodeBytes i ++ rest) = .ok (i, rest)

/-- A word that decodes is well-formed and is encoded back to itself, but for the low nibble of groups 5 and 9, which
decoding does not examine (the spec's decision D3) and the canonical encoding clears (R75, R81). -/
def Obligations.EncodeOfDecode : Prop :=
  ∀ (w : Word) (i : Instr), decodeWord w = .ok i →
    i.wf = true ∧
      encode i = if fieldGroup w = 0x5#4 ∨ fieldGroup w = 0x9#4 then w &&& 0xFFF0#16 else w

/-- The words that are not instructions are exactly those of R77: the spec's decision D4. -/
def Obligations.IllegalWordsExactly : Prop :=
  ∀ w : Word,
    (∃ e, decodeWord w = .error e) ↔
      (fieldGroup w = 0x8#4 ∧ fieldN w ∈ [0x8#4, 0x9#4, 0xA#4, 0xB#4, 0xC#4, 0xD#4, 0xF#4]) ∨
      (fieldGroup w = 0xE#4 ∧ fieldNN w ∉ [0x9E#8, 0xA1#8]) ∨
      (fieldGroup w = 0xF#4 ∧
        fieldNN w ∉ [0x07#8, 0x0A#8, 0x15#8, 0x18#8, 0x1E#8, 0x29#8, 0x33#8, 0x55#8, 0x65#8])

/-- The case "matches none of the above top-level nibbles" is never reached: no step ends in DispatchUnreachable (R78),
and a word that does not decode faults with IllegalInstruction of itself (R77: the spec's own decision D4, log 14). -/
def Obligations.NoWordIsDispatchUnreachable : Prop :=
  (∀ (w : Word) (e : Reject), decodeWord w = .error e → rejectFault w e = .illegalInstruction w) ∧
  ∀ (s t : State) (rec : FaultRecord) (w : Word),
    step s = .next t → s.status = .running → t.status = .faulted rec → rec.fault ≠ .dispatchUnreachable w

/-! ### The step -/

/-- A step whose event makes an interpreter step, at a `pc` whose two bytes decode to `i`, is `exec i` of the state with
the event taken off, `current` pushed onto the history and the event's random byte latched (R72, R231, R234, R240). -/
def Obligations.StepRunsDecodedInstruction : Prop :=
  ∀ (s : State) (i : Instr) (rest : List Byte),
    s.runsInstruction = true → s.current.pc.toNat ≤ 0xFFE →
    decode (Memory.readList s.current.memory s.current.pc.toNat 2) = .ok (i, rest) →
    step s = exec i s.pushed

/-- Fetch at a `pc` above 0xFFE faults with the first byte address out of range and no opcode, the push staying (the
spec's decisions D5 and D23). -/
def Obligations.FetchOutOfRangeFaults : Prop :=
  ∀ s : State, s.runsInstruction = true → 0xFFE < s.current.pc.toNat →
    step s = .next (s.pushed.faultedWith
      (.memoryOutOfRange (if 0xFFF < s.current.pc.toNat then s.current.pc.toNat else s.current.pc.toNat + 1)) none)

/-- A word that is not an instruction faults with itself as opcode and detail, the push staying (the spec's decisions
D4 and D23). -/
def Obligations.IllegalWordFaults : Prop :=
  ∀ (s : State) (w : Word) (e : Reject),
    s.runsInstruction = true → s.current.pc.toNat ≤ 0xFFE →
    w = wordOfBytes (Memory.read s.current.memory s.current.pc.toNat)
      (Memory.read s.current.memory (s.current.pc.toNat + 1)) →
    decodeWord w = .error e →
    step s = .next (s.pushed.faultedWith (.illegalInstruction w) (some w))

/-- Every step answers a next state: no event and no instruction is refused, and a fault is a next state (R225, R231;
log 5). -/
def Obligations.EveryStepAnswersNext : Prop := ∀ s : State, ∃ t, step s = .next t

/-- A step that ends in a fault leaves the MachineState as it was, and its record holds the address of the faulting
instruction and its word, none when the fetch itself failed; nothing of the scheduler but the status, the pushed history
and the latched byte changes (the spec's decision D23). -/
def Obligations.FaultsArePrecise : Prop :=
  ∀ (s t : State) (rec : FaultRecord),
    step s = .next t → s.status = .running → t.status = .faulted rec →
    t.current = s.current ∧ rec.pc = s.current.pc ∧
      rec.opcode = (if s.current.pc.toNat ≤ 0xFFE then
        some (wordOfBytes (Memory.read s.current.memory s.current.pc.toNat)
          (Memory.read s.current.memory (s.current.pc.toNat + 1))) else none) ∧
      t.history = pushHistory s.params.historyCapacity s.history s.current ∧
      t.paused = s.paused ∧ t.rewind = s.rewind ∧ t.params = s.params ∧ t.pending = s.pending.tail

/-- In status Faulted or Quit an event changes nothing but that it is taken off the channel (the spec's decisions D23
and D27). -/
def Obligations.TerminalStatusIsAbsorbing : Prop :=
  ∀ s : State, s.status ≠ .running →
    step s = .next s.dequeued ∧ ∀ es : List Event, s.runEvents es = .next s

/-- Each instruction faults in exactly the cases its "Exceptions" line gives, with that fault, and then changes nothing
but the status; in every other case it completes (R222; the checks are the spec's decisions D5, D8, D12, D23). -/
def Obligations.InstructionsFaultExactlyWhen : Prop :=
  ∀ (i : Instr) (s : State),
    (∀ f, s.current.faultOf i = some f →
      exec i s = .next (s.faultedWith f
        (if s.current.pc.toNat ≤ 0xFFE then
          some (wordOfBytes (Memory.read s.current.memory s.current.pc.toNat)
            (Memory.read s.current.memory (s.current.pc.toNat + 1))) else none))) ∧
    (s.current.faultOf i = none → ∃ t, exec i s = .next t ∧ t.status = s.status)

/-! ### Display -/

/-- CLS sets every pixel to 0 and changes nothing else (R101, R106). -/
def Obligations.ClearScreen : Prop :=
  Encoded 0xFFFF#16 0x00E0#16 (fun _ => .cls) ∧
  ∀ s : State, Completes .cls s fun t =>
    t.current.pc = s.current.pc + 2#16 ∧
    (∀ (row col : Nat) (hr : row < 32) (hc : col < 64), t.current.fb[row][col] = false) ∧
    SameRegs s t ∧ SameSpecial s t ∧ SameMemory s t ∧ SameScheduler s t

/-- The sprite engine: the origin is wrapped modulo 63 and 31, bit 7 of a row is its leftmost pixel, a pixel off the
grid is skipped, and every other pixel of the framebuffer is XORed with the sprite's (R102, R103, R104). The Boolean
answered says whether a lit pixel met a lit sprite pixel (R105, whose independence of the loops' order the spec marks as
derived). -/
def Obligations.DrawSpritePixels : Prop :=
  ∀ (fb : Framebuffer) (ox oy : Byte) (rows : List Byte),
    (∀ (row col : Nat) (hr : row < 32) (hc : col < 64),
      (drawSprite fb ox oy rows).1[row][col] =
        (fb[row][col] ^^ spriteBit (ox.toNat % 63) (oy.toNat % 31) rows row col)) ∧
    ((drawSprite fb ox oy rows).2 = true ↔
      ∃ (row col : Nat) (hr : row < 32) (hc : col < 64),
        fb[row][col] = true ∧ spriteBit (ox.toNat % 63) (oy.toNat % 31) rows row col = true)

/-- DRW draws the N bytes at I with the coordinates Vx and Vy read before VF is written, sets VF to the collision flag
and changes nothing else; N = 0 reads nothing, whatever I (R105, R107; the range check is the spec's decision D5). -/
def Obligations.DrawInstruction : Prop :=
  ∀ (x y : Reg) (n : Fin 16) (s : State), n = 0 ∨ s.current.I.toNat + n.val - 1 ≤ 0xFFF →
    Completes (.drw x y n) s fun t =>
      (∀ (row col : Nat) (hr : row < 32) (hc : col < 64),
        t.current.fb[row][col] =
          (s.current.fb[row][col] ^^ spriteBit ((s.current.getV x).toNat % 63) ((s.current.getV y).toNat % 31)
            (Memory.readList s.current.memory s.current.I.toNat n.val) row col)) ∧
      (t.current.getV 15 = 1#8 ∨ t.current.getV 15 = 0#8) ∧
      (t.current.getV 15 = 1#8 ↔
        ∃ (row col : Nat) (hr : row < 32) (hc : col < 64), s.current.fb[row][col] = true ∧
          spriteBit ((s.current.getV x).toNat % 63) ((s.current.getV y).toNat % 31)
            (Memory.readList s.current.memory s.current.I.toNat n.val) row col = true) ∧
      (∀ r : Reg, r ≠ 15 → t.current.getV r = s.current.getV r) ∧
      t.current.pc = s.current.pc + 2#16 ∧ SameSpecial s t ∧ SameMemory s t ∧ SameScheduler s t

/-- Drawing the same sprite twice at the same origin restores the framebuffer; on a blank framebuffer the first draw
reports no collision and the second reports one exactly when the first lit a pixel (95_test_vectors.md L1-4). Neither
coordinate is VF here: the first draw would change it. -/
def Obligations.DrawTwiceRestores : Prop :=
  ∀ (x y : Reg) (n : Fin 16) (s : State), x ≠ 15 → y ≠ 15 → n = 0 ∨ s.current.I.toNat + n.val - 1 ≤ 0xFFF →
    ∃ t u, exec (.drw x y n) s = .next t ∧ exec (.drw x y n) t = .next u ∧
      u.current.fb = s.current.fb ∧
      ((∀ (row col : Nat) (hr : row < 32) (hc : col < 64), s.current.fb[row][col] = false) →
        t.current.getV 15 = 0#8 ∧
        (u.current.getV 15 = 1#8 ↔
          ∃ (row col : Nat) (hr : row < 32) (hc : col < 64), t.current.fb[row][col] = true))

/-! ### Control transfer -/

/-- JP sets `pc` to the 12-bit target, zero-extended, and changes nothing else (R125). -/
def Obligations.JumpSetsPc : Prop :=
  Encoded 0xF000#16 0x1000#16 (fun w => .jp (fieldNNN w)) ∧
  ∀ (nnn : Addr12) (s : State), PcWrite (.jp nnn) s (BitVec.ofNat 16 nnn.toNat)

/-- JP V0 sets `pc` to V0 plus the address, not masked to 12 bits, and changes nothing else (R131: the spec's decision
D6). -/
def Obligations.JumpOffsetAddsV0 : Prop :=
  ∀ (nnn : Addr12) (s : State),
    PcWrite (.jpV0 nnn) s (BitVec.ofNat 16 ((s.current.getV 0).toNat + nnn.toNat))

/-- SE Vx, NN and SNE Vx, NN skip exactly when Vx equals, or differs from, the immediate, and change only `pc` (R127,
R128). -/
def Obligations.SkipOnImmediate : Prop :=
  Encoded 0xF000#16 0x3000#16 (fun w => .seImm (fieldX w) (fieldNN w)) ∧
  Encoded 0xF000#16 0x4000#16 (fun w => .sneImm (fieldX w) (fieldNN w)) ∧
  ∀ (x : Reg) (nn : Byte) (s : State),
    PcWrite (.seImm x nn) s (if s.current.getV x = nn then s.current.pc + 4#16 else s.current.pc + 2#16) ∧
    PcWrite (.sneImm x nn) s (if s.current.getV x = nn then s.current.pc + 2#16 else s.current.pc + 4#16)

/-- SE Vx, Vy and SNE Vx, Vy skip exactly when the registers are equal, or differ, and change only `pc`; the words'
low nibble is not examined (R129, R130: the spec's decision D3). -/
def Obligations.SkipOnRegisters : Prop :=
  Encoded 0xF000#16 0x5000#16 (fun w => .seReg (fieldX w) (fieldY w)) ∧
  Encoded 0xF000#16 0x9000#16 (fun w => .sneReg (fieldX w) (fieldY w)) ∧
  ∀ (x y : Reg) (s : State),
    PcWrite (.seReg x y) s
      (if s.current.getV x = s.current.getV y then s.current.pc + 4#16 else s.current.pc + 2#16) ∧
    PcWrite (.sneReg x y) s
      (if s.current.getV x = s.current.getV y then s.current.pc + 2#16 else s.current.pc + 4#16)

/-- CALL and SYS below depth 16 write the address after them to the slot at `sp`, add 1 to `sp` and jump; every other
slot, register and byte is unchanged (R121, R124, R126: the push is the spec's decision D8). -/
def Obligations.CallPushesReturnAddress : Prop :=
  ∀ (i : Instr) (nnn : Addr12) (s : State), i = .call nnn ∨ i = .sys nnn → s.current.sp.val < 16 →
    Completes i s fun t =>
      t.current.pc = BitVec.ofNat 16 nnn.toNat ∧ t.current.sp.val = s.current.sp.val + 1 ∧
      (∀ j : Fin 16, t.current.stack[j] =
        if j.val = s.current.sp.val then s.current.pc + 2#16 else s.current.stack[j]) ∧
      SameRegs s t ∧ t.current.I = s.current.I ∧ t.current.DT = s.current.DT ∧ t.current.ST = s.current.ST ∧
      t.current.keys = s.current.keys ∧ t.current.fb = s.current.fb ∧ SameMemory s t ∧ SameScheduler s t

/-- RET above depth 0 subtracts 1 from `sp` and jumps to the slot there, which keeps its value; nothing else changes
(R122, R123: the pop is the spec's decision D8). -/
def Obligations.ReturnPopsTarget : Prop :=
  ∀ s : State, 0 < s.current.sp.val →
    Completes .ret s fun t =>
      (∀ j : Fin 16, j.val + 1 = s.current.sp.val → t.current.pc = s.current.stack[j]) ∧
      t.current.sp.val + 1 = s.current.sp.val ∧ t.current.stack = s.current.stack ∧
      SameRegs s t ∧ t.current.I = s.current.I ∧ t.current.DT = s.current.DT ∧ t.current.ST = s.current.ST ∧
      t.current.keys = s.current.keys ∧ t.current.fb = s.current.fb ∧ SameMemory s t ∧ SameScheduler s t

/-- "00EE immediately after 2NNN returns PC to the instruction following the original call, and stack depth returns to
its pre-call value" (R123, with the spec's decision D8 and conflict C5). -/
def Obligations.CallThenReturn : Prop :=
  ∀ (nnn : Addr12) (s : State), s.current.sp.val < 16 →
    ∃ t u, exec (.call nnn) s = .next t ∧ exec .ret t = .next u ∧
      u.current.pc = s.current.pc + 2#16 ∧ u.current.sp = s.current.sp ∧
      ∀ j : Fin 16, j.val < s.current.sp.val → u.current.stack[j] = s.current.stack[j]

/-! ### Arithmetic and logic -/

/-- LD Vx, NN; ADD Vx, NN (wrapping, no flag); LD Vx, Vy: Vx alone is written (R151, R152, R153). -/
def Obligations.LoadsAndAddImmediate : Prop :=
  Encoded 0xF000#16 0x6000#16 (fun w => .ldImm (fieldX w) (fieldNN w)) ∧
  Encoded 0xF000#16 0x7000#16 (fun w => .addImm (fieldX w) (fieldNN w)) ∧
  Encoded 0xF00F#16 0x8000#16 (fun w => .ldReg (fieldX w) (fieldY w)) ∧
  ∀ (x y : Reg) (nn : Byte) (s : State),
    RegWrite (.ldImm x nn) s (fun r => if r = x then nn else s.current.getV r) ∧
    RegWrite (.addImm x nn) s (fun r =>
      if r = x then BitVec.ofNat 8 ((s.current.getV x).toNat + nn.toNat) else s.current.getV r) ∧
    RegWrite (.ldReg x y) s (fun r => if r = x then s.current.getV y else s.current.getV r)

/-- OR, AND and XOR write Vx bit by bit and leave VF untouched unless X = 15 (R154, R155, R156). -/
def Obligations.LogicLeavesVF : Prop :=
  Encoded 0xF00F#16 0x8001#16 (fun w => .orReg (fieldX w) (fieldY w)) ∧
  Encoded 0xF00F#16 0x8002#16 (fun w => .andReg (fieldX w) (fieldY w)) ∧
  Encoded 0xF00F#16 0x8003#16 (fun w => .xorReg (fieldX w) (fieldY w)) ∧
  ∀ (x y : Reg) (s : State),
    RegWrite (.orReg x y) s (fun r => if r = x then s.current.getV x ||| s.current.getV y else s.current.getV r) ∧
    RegWrite (.andReg x y) s (fun r => if r = x then s.current.getV x &&& s.current.getV y else s.current.getV r) ∧
    RegWrite (.xorReg x y) s (fun r => if r = x then s.current.getV x ^^^ s.current.getV y else s.current.getV r)

/-- ADD Vx, Vy: the wrapped sum to Vx, then VF = 1 exactly when the exact sum fits in 8 bits; with X = 15 the flag stays
(R157, R158: the spec's decisions D9 and D10). -/
def Obligations.AddRegistersSetsWrapFlag : Prop :=
  ∀ (x y : Reg) (s : State),
    RegWrite (.addReg x y) s (fun r =>
      if r = 15 then (if (s.current.getV x).toNat + (s.current.getV y).toNat ≤ 255 then 1#8 else 0#8)
      else if r = x then BitVec.ofNat 8 ((s.current.getV x).toNat + (s.current.getV y).toNat)
      else s.current.getV r)

/-- SUB and SUBN: the wrapped difference to Vx, then VF = 1 exactly when it does not wrap; with X = 15 the flag stays
(R157, R159, R161: the spec's decisions D9 and D10). -/
def Obligations.SubtractSetsWrapFlag : Prop :=
  ∀ (x y : Reg) (s : State),
    RegWrite (.sub x y) s (fun r =>
      if r = 15 then (if (s.current.getV y).toNat ≤ (s.current.getV x).toNat then 1#8 else 0#8)
      else if r = x then BitVec.ofNat 8 ((s.current.getV x).toNat + 256 - (s.current.getV y).toNat)
      else s.current.getV r) ∧
    RegWrite (.subn x y) s (fun r =>
      if r = 15 then (if (s.current.getV x).toNat ≤ (s.current.getV y).toNat then 1#8 else 0#8)
      else if r = x then BitVec.ofNat 8 ((s.current.getV y).toNat + 256 - (s.current.getV x).toNat)
      else s.current.getV r)

/-- SHR and SHL read Vx only and put the bit shifted out in VF; with X = 15 the shift reads the flag just written, so
VF ends 0, or twice the flag (R160, R162: the case X = 15 is the spec's decision D11). -/
def Obligations.ShiftsReadVxOnly : Prop :=
  ∀ (x y : Reg) (s : State),
    RegWrite (.shr x y) s (fun r =>
      if x = 15 ∧ r = 15 then 0#8
      else if r = 15 then BitVec.ofNat 8 ((s.current.getV x).toNat % 2)
      else if r = x then BitVec.ofNat 8 ((s.current.getV x).toNat / 2)
      else s.current.getV r) ∧
    RegWrite (.shl x y) s (fun r =>
      if x = 15 ∧ r = 15 then BitVec.ofNat 8 (2 * ((s.current.getV x).toNat / 128))
      else if r = 15 then BitVec.ofNat 8 ((s.current.getV x).toNat / 128)
      else if r = x then BitVec.ofNat 8 (2 * (s.current.getV x).toNat)
      else s.current.getV r)

/-- RND: for every value of the draw, Vx is the draw masked by NN and nothing else is written; bits clear in NN are
clear in the result (R164: the draw is the spec's decision D13; log 2). -/
def Obligations.RandomIsMasked : Prop :=
  ∀ (x : Reg) (nn : Byte) (s : State),
    RegWrite (.rnd x nn) s (fun r => if r = x then s.draw &&& nn else s.current.getV r) ∧
    ∀ (t : State), exec (.rnd x nn) s = .next t →
      ∀ b : Nat, nn.getLsbD b = false → (t.current.getV x).getLsbD b = false

/-! ### Index register and memory -/

/-- LD I, NNN sets I to the zero-extended address and changes nothing else (R181). -/
def Obligations.LoadIndex : Prop :=
  Encoded 0xF000#16 0xA000#16 (fun w => .ldI (fieldNNN w)) ∧
  ∀ (nnn : Addr12) (s : State), IndexWrite (.ldI nnn) s (BitVec.ofNat 16 nnn.toNat)

/-- ADD I, Vx adds modulo 2^16 with no flag; LD F, Vx takes five bytes a glyph from 0x050, Vx not masked (R182, R183:
the spec's decision D7). -/
def Obligations.IndexArithmetic : Prop :=
  ∀ (x : Reg) (s : State),
    IndexWrite (.addI x) s (BitVec.ofNat 16 (s.current.I.toNat + (s.current.getV x).toNat)) ∧
    IndexWrite (.ldF x) s (BitVec.ofNat 16 (0x050 + 5 * (s.current.getV x).toNat))

/-- LD B, Vx stores hundreds, tens and ones at I, I+1 and I+2 and no other byte, and changes no register (R184; the
range is the spec's decision D5). -/
def Obligations.StoreDecimalDigits : Prop :=
  ∀ (x : Reg) (s : State), Memory.wf s.current.memory = true → s.current.I.toNat + 2 ≤ 0xFFF →
    Completes (.ldB x) s fun t =>
      (Memory.read t.current.memory s.current.I.toNat).toNat = (s.current.getV x).toNat / 100 ∧
      (Memory.read t.current.memory (s.current.I.toNat + 1)).toNat = (s.current.getV x).toNat / 10 % 10 ∧
      (Memory.read t.current.memory (s.current.I.toNat + 2)).toNat = (s.current.getV x).toNat % 10 ∧
      SameMemoryOutside s.current.I.toNat 3 s t ∧ t.current.pc = s.current.pc + 2#16 ∧
      SameRegs s t ∧ SameSpecial s t ∧ t.current.fb = s.current.fb ∧ SameScheduler s t

/-- LD [I], Vx stores V0 to Vx at I to I+X and no other byte, and changes no register, I included (R186; the range is
the spec's decision D5). -/
def Obligations.StoreRegisters : Prop :=
  ∀ (x : Reg) (s : State), Memory.wf s.current.memory = true → s.current.I.toNat + x.val ≤ 0xFFF →
    Completes (.ldMemVx x) s fun t =>
      (∀ r : Reg, r ≤ x → Memory.read t.current.memory (s.current.I.toNat + r.val) = s.current.getV r) ∧
      SameMemoryOutside s.current.I.toNat (x.val + 1) s t ∧ t.current.pc = s.current.pc + 2#16 ∧
      SameRegs s t ∧ SameSpecial s t ∧ t.current.fb = s.current.fb ∧ SameScheduler s t

/-- LD Vx, [I] loads V0 to Vx from I to I+X and no other register, and changes no byte and not I (R187; the range is
the spec's decision D5). -/
def Obligations.LoadRegisters : Prop :=
  ∀ (x : Reg) (s : State), s.current.I.toNat + x.val ≤ 0xFFF →
    RegWrite (.ldVxMem x) s (fun r =>
      if r ≤ x then Memory.read s.current.memory (s.current.I.toNat + r.val) else s.current.getV r)

/-- Storing V0 to Vx and loading them back leaves every register as it was, whatever was loaded between into the
registers stored (R180, R186, R187, with the range of the spec's decision D5). -/
def Obligations.StoreThenLoadRestores : Prop :=
  ∀ (x : Reg) (s : State), Memory.wf s.current.memory = true → s.current.I.toNat + x.val ≤ 0xFFF →
    ∃ t, exec (.ldMemVx x) s = .next t ∧
      ∀ (t' : State), t'.current.memory = t.current.memory → t'.current.I = t.current.I →
        (∀ r : Reg, x < r → t'.current.getV r = t.current.getV r) →
        ∃ u, exec (.ldVxMem x) t' = .next u ∧ ∀ r : Reg, u.current.getV r = s.current.getV r

/-- A byte written by FX33 or FX55 is seen by the next fetch: wherever the stored block lies over the next instruction,
its word is fetched with the stored bytes in place, and with what memory held in the others; there is no instruction
cache (R61, which the spec marks as derived; the range is the spec's decision D5). -/
def Obligations.StoreSeenByNextFetch : Prop :=
  ∀ (x : Reg) (s : State), Memory.wf s.current.memory = true → (s.current.pc + 2#16).toNat ≤ 0xFFE →
    (s.current.I.toNat + x.val ≤ 0xFFF →
      ∃ t, exec (.ldMemVx x) s = .next t ∧
        t.current.fetchWord = .ok (fetchedAfterStore s.current (storedRegisters s.current x))) ∧
    (s.current.I.toNat + 2 ≤ 0xFFF →
      ∃ t, exec (.ldB x) s = .next t ∧
        t.current.fetchWord = .ok (fetchedAfterStore s.current (storedDigits s.current x)))

/-! ### Keys and timers -/

/-- SKP and SKNP with a key number of at most 15 skip exactly when that key is active, or not, whatever its counter, and
change only `pc` (R200, R204, R205; the range is the spec's decision D12). -/
def Obligations.SkipOnKey : Prop :=
  ∀ (x : Reg) (k : Fin 16) (s : State), (s.current.getV x).toNat = k.val →
    PcWrite (.skp x) s (if 0 < s.current.keys[k].toNat then s.current.pc + 4#16 else s.current.pc + 2#16) ∧
    PcWrite (.sknp x) s (if 0 < s.current.keys[k].toNat then s.current.pc + 2#16 else s.current.pc + 4#16)

/-- LD Vx, DT reads the delay timer; LD DT, Vx and LD ST, Vx write one timer and nothing else (R206, R208, R209). -/
def Obligations.TimerTransfers : Prop :=
  Encoded 0xF0FF#16 0xF007#16 (fun w => .ldVxDT (fieldX w)) ∧
  Encoded 0xF0FF#16 0xF015#16 (fun w => .ldDTVx (fieldX w)) ∧
  Encoded 0xF0FF#16 0xF018#16 (fun w => .ldSTVx (fieldX w)) ∧
  ∀ (x : Reg) (s : State),
    RegWrite (.ldVxDT x) s (fun r => if r = x then s.current.DT else s.current.getV r) ∧
    (Completes (.ldDTVx x) s fun t =>
      t.current.DT = s.current.getV x ∧ t.current.ST = s.current.ST ∧ t.current.pc = s.current.pc + 2#16 ∧
      SameRegs s t ∧ t.current.I = s.current.I ∧ t.current.stack = s.current.stack ∧ t.current.sp = s.current.sp ∧
      t.current.keys = s.current.keys ∧ t.current.fb = s.current.fb ∧ SameMemory s t ∧ SameScheduler s t) ∧
    (Completes (.ldSTVx x) s fun t =>
      t.current.ST = s.current.getV x ∧ t.current.DT = s.current.DT ∧ t.current.pc = s.current.pc + 2#16 ∧
      SameRegs s t ∧ t.current.I = s.current.I ∧ t.current.stack = s.current.stack ∧ t.current.sp = s.current.sp ∧
      t.current.keys = s.current.keys ∧ t.current.fb = s.current.fb ∧ SameMemory s t ∧ SameScheduler s t)

/-- LD Vx, K: with an active key, Vx is the lowest-indexed one and `pc` advances; with none, `pc` stays at this
instruction and nothing else changes (R207). -/
def Obligations.WaitForKey : Prop :=
  Encoded 0xF0FF#16 0xF00A#16 (fun w => .ldVxK (fieldX w)) ∧
  ∀ (x : Reg) (s : State),
    (∀ k : Fin 16, 0 < s.current.keys[k].toNat → (∀ j : Fin 16, j < k → s.current.keys[j].toNat = 0) →
      RegWrite (.ldVxK x) s (fun r => if r = x then BitVec.ofNat 8 k.val else s.current.getV r)) ∧
    ((∀ k : Fin 16, s.current.keys[k].toNat = 0) → PcWrite (.ldVxK x) s s.current.pc)

/-- `press_key` clears every counter and sets one to 2; `key_decay` lowers every nonzero counter by 1; after a press two
decays leave no key active, and one decay leaves that key alone active (R201, R202). `timer_tick` lowers DT by 1 while
it is greater than 0 (R210). Each changes nothing else. -/
def Obligations.DeviceOperations : Prop :=
  ∀ (m : MachineState) (k : Fin 16),
    (∀ j : Fin 16, (m.pressKey k).keys[j].toNat = if j = k then 2 else 0) ∧
    (∀ j : Fin 16, m.keyDecay.keys[j].toNat = m.keys[j].toNat - 1) ∧
    (∀ j : Fin 16, (0 < (m.pressKey k).keyDecay.keys[j].toNat ↔ j = k)) ∧
    (∀ j : Fin 16, (m.pressKey k).keyDecay.keyDecay.keys[j].toNat = 0) ∧
    m.timerTick.DT.toNat = m.DT.toNat - 1 ∧
    m.pressKey k = { m with keys := (m.pressKey k).keys } ∧
    m.keyDecay = { m with keys := m.keyDecay.keys } ∧
    m.timerTick = { m with DT := m.timerTick.DT }

/-! ### What each instruction may write -/

/-- An instruction writes no general register its rule does not name; VF is written as a side effect only by 8XY4 to
8XY7, 8XYE and DXYN (R21, R22). -/
def Obligations.OnlyNamedRegistersWritten : Prop :=
  ∀ (i : Instr) (s t : State) (r : Reg),
    exec i s = .next t → writesReg i r = false → t.current.getV r = s.current.getV r

/-- Each other piece of state is written only by the instructions its rule lists (R23, R24, R26, R27, R28, R29, R55),
and no instruction touches the scheduler's fields but the status. -/
def Obligations.OnlyListedInstructionsWrite : Prop :=
  ∀ (i : Instr) (s t : State), exec i s = .next t →
    (t.current.I ≠ s.current.I → (∃ a, i = .ldI a) ∨ (∃ x, i = .addI x) ∨ ∃ x, i = .ldF x) ∧
    (t.current.stack ≠ s.current.stack → (∃ a, i = .call a) ∨ ∃ a, i = .sys a) ∧
    (t.current.sp ≠ s.current.sp → (∃ a, i = .call a) ∨ (∃ a, i = .sys a) ∨ i = .ret) ∧
    (t.current.DT ≠ s.current.DT → ∃ x, i = .ldDTVx x) ∧
    (t.current.ST ≠ s.current.ST → ∃ x, i = .ldSTVx x) ∧
    t.current.keys = s.current.keys ∧
    (t.current.fb ≠ s.current.fb → i = .cls ∨ ∃ x y n, i = .drw x y n) ∧
    (t.current.memory ≠ s.current.memory → (∃ x, i = .ldB x) ∨ ∃ x, i = .ldMemVx x) ∧
    t.history = s.history ∧ t.paused = s.paused ∧ t.rewind = s.rewind ∧ t.pending = s.pending ∧
    t.params = s.params ∧ t.draw = s.draw

/-! ### Events -/

/-- One step handles exactly the first event of the channel. With nothing waiting it handles what the environment
enqueues at that step, any event or none, and with none nothing happens (R9, R233; the stream `Config.arrival` and the
counter of steps that indexes it are the model's own choice, log 1). A run over an infinite sequence is its finite
beginnings, one event after another. -/
def Obligations.StepDeliversNextEvent : Prop :=
  (∀ (s : State) (e : Event) (rest : List Event), s.pending = e :: rest →
    step s = State.eventStep { s with pending := rest, stepCount := s.stepCount + 1 } e) ∧
  (∀ s : State, s.pending = [] →
    step s = match Config.arrival s.stepCount with
      | some e => State.eventStep { s with stepCount := s.stepCount + 1 } e
      | none => .next { s with stepCount := s.stepCount + 1 }) ∧
  ∀ (s t : State) (events : Nat → Event) (n : Nat), s.runStream events n = .next t →
    s.runStream events (n + 1) = t.eventStep (events n)

/-- A CPU tick: with the rewind counter above 0 and a snapshot, the most recent one is made current and leaves the
history, paused or not; else nothing while paused; else `current` is pushed and the interpreter stepped. The counter
stays (R234, with the spec's decision D19). -/
def Obligations.CpuTickBranches : Prop :=
  ∀ (s : State) (r : Byte), s.status = .running →
    (∀ (m : MachineState) (h : List MachineState), 0 < s.rewind → s.history = h ++ [m] →
      s.eventStep (.cpuTick r) = .next { s with current := m, history := h }) ∧
    ((s.rewind = 0 ∨ s.history = []) → s.paused = true → s.eventStep (.cpuTick r) = .next s) ∧
    ((s.rewind = 0 ∨ s.history = []) → s.paused = false →
      s.eventStep (.cpuTick r) = s.eventStep (.stepForward r))

/-- StepForward pushes `current` and makes an interpreter step of it with its random byte, whatever `paused` and `rewind`
hold, and that step leaves the pushed history and the scheduler's other fields but the status; StepBack restores the most
recent snapshot, and does nothing without one (R240, R242: the spec's decision D20). -/
def Obligations.StepCommands : Prop :=
  ∀ (s : State) (r : Byte), s.status = .running →
    s.eventStep (.stepForward r) = State.interpStep
      { s with history := pushHistory s.params.historyCapacity s.history s.current, draw := r } ∧
    (∀ t, s.eventStep (.stepForward r) = .next t →
      t.history = pushHistory s.params.historyCapacity s.history s.current ∧ t.paused = s.paused ∧
        t.rewind = s.rewind ∧ t.draw = r ∧ t.pending = s.pending ∧ t.params = s.params) ∧
    (∀ (m : MachineState) (h : List MachineState), s.history = h ++ [m] →
      s.eventStep .stepBack = .next { s with current := m, history := h }) ∧
    (s.history = [] → s.eventStep .stepBack = .next s)

/-- A push appends; at a finite capacity that is reached the oldest entry is dropped first, and a history that fits
still fits (R246: the spec's decision D24). -/
def Obligations.PushKeepsCapacity : Prop :=
  ∀ (cap : HistoryCapacity) (h : List MachineState) (m : MachineState),
    (HasRoom cap (h.length + 1) → pushHistory cap h m = h ++ [m]) ∧
    (∀ (c : Nat) (oldest : MachineState) (rest : List MachineState),
      cap = .bounded c → h = oldest :: rest → h.length = c → pushHistory cap h m = rest ++ [m]) ∧
    (cap ≠ .bounded 0 → HistoryFits cap h → HistoryFits cap (pushHistory cap h m))

/-- StepForward without a fault, then StepBack, restores `current` and the history (95_test_vectors.md V-SCH5). -/
def Obligations.StepForwardThenBack : Prop :=
  ∀ (s t : State) (r : Byte), s.status = .running → HasRoom s.params.historyCapacity (s.history.length + 1) →
    s.eventStep (.stepForward r) = .next t → t.status = .running →
    ∃ u, t.eventStep .stepBack = .next u ∧ u.current = s.current ∧ u.history = s.history ∧ u.status = .running

/-- Timer ticks, key-decay ticks and key presses change DT or the keys between two instructions and nothing else; no
event enters a handler or changes `pc` (R227). -/
def Obligations.DeviceEventsChangeOnlyDevices : Prop :=
  ∀ (s : State) (e : Event) (t : State),
    e = .timerTick ∨ e = .keyDecayTick ∨ (∃ k, e = .keyPress k) → s.eventStep e = .next t →
    ∃ (dt : Byte) (ks : Vector Byte 16),
      t = { s with current := { s.current with DT := dt, keys := ks } } ∧
      (e = .timerTick → ks = s.current.keys) ∧ (e ≠ .timerTick → dt = s.current.DT)

/-- The device events act on `current` whether or not the scheduler is paused or rewinding (R235, R236, R237: the
spec's decision D18). -/
def Obligations.DeviceEventsActWhilePaused : Prop :=
  ∀ (s : State) (k : Fin 16), s.status = .running →
    s.eventStep .timerTick = .next { s with current := s.current.timerTick } ∧
    s.eventStep .keyDecayTick = .next { s with current := s.current.keyDecay } ∧
    s.eventStep (.keyPress k) = .next { s with current := s.current.pressKey k }

/-- The commands: SetPaused, BeginRewind, RewindDecay (never below 0), Resize, Quit, and Reset, which reloads the same
program and font, discards the history and leaves `paused` (R238, R239, R241, R243, R244: the spec's decisions D19, D21,
D27 and D34). -/
def Obligations.CommandEvents : Prop :=
  ∀ (s : State) (b : Bool) (n : Nat), s.status = .running →
    s.eventStep (.setPaused b) = .next { s with paused := b } ∧
    s.eventStep (.beginRewind n) = .next { s with rewind := n } ∧
    (∃ t, s.eventStep .rewindDecay = .next t ∧ t = { s with rewind := t.rewind } ∧
      (0 < s.rewind → t.rewind + 1 = s.rewind) ∧ (s.rewind = 0 → t.rewind = 0)) ∧
    s.eventStep .resize = .next s ∧
    s.eventStep .quit = .next { s with status := .quit } ∧
    s.eventStep .reset = .next { s with current := initialState s.params, history := [], rewind := 0 }

/-- Only BeginRewind, RewindDecay and Reset change the rewind counter, and only SetPaused changes `paused`; no step
changes the parameters, and each takes exactly its event off the channel (R243, R44: the spec's decisions D19, D21). -/
def Obligations.OnlyListedEventsChangeScheduler : Prop :=
  ∀ s t : State, step s = .next t →
    (t.rewind ≠ s.rewind → (∃ n, s.nextEvent = some (.beginRewind n)) ∨ s.nextEvent = some .rewindDecay ∨ s.nextEvent = some .reset) ∧
    (t.paused ≠ s.paused → ∃ b, s.nextEvent = some (.setPaused b)) ∧
    t.params = s.params ∧ t.pending = s.pending.tail

/-- "No tick and no event decrements ST": it changes only in a step that executes LD ST, Vx, restores a snapshot or
resets (R211: the spec's decision D33). -/
def Obligations.OnlyListedEventsChangeSoundTimer : Prop :=
  ∀ s t : State, step s = .next t → t.current.ST ≠ s.current.ST →
    s.restores = true ∨ s.nextEvent = some .reset ∨
      (s.runsInstruction = true ∧ ∃ x, s.current.nextInstr = some (.ldSTVx x))

/-- The key table changes only by a key press, a key-decay tick, a restore or a reset: no instruction writes it
(R28, R203). -/
def Obligations.OnlyListedEventsChangeKeys : Prop :=
  ∀ s t : State, step s = .next t → t.current.keys ≠ s.current.keys →
    (∃ k, s.nextEvent = some (.keyPress k)) ∨ s.nextEvent = some .keyDecayTick ∨ s.nextEvent = some .reset ∨ s.restores = true

/-- Rewind restores exactly: from the first of N CPU ticks that step forward without fault, through a BeginRewind of more
than 0, the N-th CPU tick after it restores the MachineState and the history from before the first, with timer ticks,
key-decay ticks and key presses interleaved anywhere in that span (R247, which the spec marks as derived). -/
def Obligations.RewindRestoresExactly : Prop :=
  ∀ (s s' : State) (first last : Byte) (forth back : List Event) (n : Nat),
    s.status = .running → s.paused = false → s.rewind = 0 →
    HasRoom s.params.historyCapacity (s.history.length + (cpuTicks forth + 1)) →
    (∀ e ∈ forth, e.inRewindSpan = true) → (∀ e ∈ back, e.inRewindSpan = true) →
    s.runEvents (.cpuTick first :: forth) = .next s' → s'.status = .running →
    0 < n → cpuTicks back = cpuTicks forth →
    ∃ u, s'.runEvents (.beginRewind n :: back ++ [.cpuTick last]) = .next u ∧
      u.current = s.current ∧ u.history = s.history ∧ u.status = .running

/-! ### Invariants, memory and launch -/

/-- Reset satisfies the invariant. -/
def Obligations.ResetSatisfiesInv : Prop := State.reset.Inv

/-- Every step keeps the invariant: memory in canonical form and R203's key table in `current` and in every snapshot, the
parameters as launched, and the history within its capacity. -/
def Obligations.StepKeepsInv : Prop := ∀ s t : State, s.Inv → step s = .next t → t.Inv

/-- The canonical form is canonical: memories that read the same at every address are the same list. -/
def Obligations.CanonicalMemoriesAgree : Prop :=
  ∀ m m' : Memory, Memory.wf m = true → Memory.wf m' = true →
    (∀ a, Memory.read m a = Memory.read m' a) → m = m'

/-- Power-on with a program that fits: the font at 0x050 to 0x09F, the program from 0x200, 0 at every other address, the
registers, stack, timers, keys and pixels 0, `pc` = 0x200 (R45, R260, R261, R262: the zeros, the entry point and the
limit are the spec's decisions D14 to D17). -/
def Obligations.PowerOnState : Prop :=
  ∀ p : Params, p.rom.length ≤ 3584 →
    (∀ j : Nat, (h : j < 80) → Memory.read (State.powerOn p).current.memory (0x050 + j) = p.font[j]) ∧
    (∀ j : Nat, (h : j < p.rom.length) → Memory.read (State.powerOn p).current.memory (0x200 + j) = p.rom[j]) ∧
    (∀ a : Nat, a < 0x050 ∨ (0x0A0 ≤ a ∧ a < 0x200) ∨ 0x200 + p.rom.length ≤ a →
      Memory.read (State.powerOn p).current.memory a = 0#8) ∧
    (∀ r : Reg, (State.powerOn p).current.getV r = 0#8) ∧ (State.powerOn p).current.I = 0#16 ∧
    (State.powerOn p).current.pc = 0x200#16 ∧ (State.powerOn p).current.sp = 0 ∧
    (∀ j : Fin 16, (State.powerOn p).current.stack[j] = 0#16) ∧
    (State.powerOn p).current.DT = 0#8 ∧ (State.powerOn p).current.ST = 0#8 ∧
    (∀ k : Fin 16, (State.powerOn p).current.keys[k] = 0#8) ∧
    (∀ (row col : Nat) (hr : row < 32) (hc : col < 64), (State.powerOn p).current.fb[row][col] = false) ∧
    (State.powerOn p).history = [] ∧ (State.powerOn p).paused = p.startPaused ∧ (State.powerOn p).rewind = 0 ∧
    (State.powerOn p).status = .running

/-- A program of more than 3584 bytes is refused at load, and one that fits is launched (R262: the spec's decision
D17; the capacity 0 that R40 does not admit is refused too, log 9). -/
def Obligations.LoadChecksProgramLength : Prop :=
  ∀ p : Params,
    (3584 < p.rom.length → State.load p = .refused (.romTooLong p.rom.length)) ∧
    (p.rom.length ≤ 3584 → p.historyCapacity = .bounded 0 → State.load p = .refused .noHistoryCapacity) ∧
    (Params.Ok p → State.load p = .next (State.powerOn p) ∧ (State.powerOn p).Inv)
end

