-- ==== Sys2Proof/Laws/State.lean ====
section
/-! SUPPORT. One lemma per field per update of the MachineState and of the State, each true by unfolding the update, so
that no later proof unfolds one. -/

namespace Sys2Proof.Machine

/-! ### The named constants -/

@[simp] theorem memSize_eq : memSize = 4096 := rfl
@[simp] theorem wrapX_eq : wrapX = 63 := rfl
@[simp] theorem wrapY_eq : wrapY = 31 := rfl
@[simp] theorem fontBase_eq : fontBase = 80 := rfl
@[simp] theorem glyphBytes_eq : glyphBytes = 5 := rfl
@[simp] theorem programStart_eq : programStart = 512 := rfl
@[simp] theorem romMax_eq : romMax = 3584 := rfl
@[simp] theorem keyPressValue_eq : keyPressValue = 2#8 := rfl

/-! ### Updates of the MachineState -/

@[simp] theorem MachineState.setV_memory (m : MachineState) (x : Reg) (v : Byte) : (m.setV x v).memory = m.memory := rfl
@[simp] theorem MachineState.setV_V (m : MachineState) (x : Reg) (v : Byte) : (m.setV x v).V = m.V.set x v := rfl
@[simp] theorem MachineState.setV_I (m : MachineState) (x : Reg) (v : Byte) : (m.setV x v).I = m.I := rfl
@[simp] theorem MachineState.setV_pc (m : MachineState) (x : Reg) (v : Byte) : (m.setV x v).pc = m.pc := rfl
@[simp] theorem MachineState.setV_stack (m : MachineState) (x : Reg) (v : Byte) : (m.setV x v).stack = m.stack := rfl
@[simp] theorem MachineState.setV_sp (m : MachineState) (x : Reg) (v : Byte) : (m.setV x v).sp = m.sp := rfl
@[simp] theorem MachineState.setV_DT (m : MachineState) (x : Reg) (v : Byte) : (m.setV x v).DT = m.DT := rfl
@[simp] theorem MachineState.setV_ST (m : MachineState) (x : Reg) (v : Byte) : (m.setV x v).ST = m.ST := rfl
@[simp] theorem MachineState.setV_keys (m : MachineState) (x : Reg) (v : Byte) : (m.setV x v).keys = m.keys := rfl
@[simp] theorem MachineState.setV_fb (m : MachineState) (x : Reg) (v : Byte) : (m.setV x v).fb = m.fb := rfl
@[simp] theorem MachineState.setV_trace (m : MachineState) (x : Reg) (v : Byte) : (m.setV x v).trace = m.trace := rfl

@[simp] theorem MachineState.setI_memory (m : MachineState) (v : Word) : (m.setI v).memory = m.memory := rfl
@[simp] theorem MachineState.setI_V (m : MachineState) (v : Word) : (m.setI v).V = m.V := rfl
@[simp] theorem MachineState.setI_I (m : MachineState) (v : Word) : (m.setI v).I = v := rfl
@[simp] theorem MachineState.setI_pc (m : MachineState) (v : Word) : (m.setI v).pc = m.pc := rfl
@[simp] theorem MachineState.setI_stack (m : MachineState) (v : Word) : (m.setI v).stack = m.stack := rfl
@[simp] theorem MachineState.setI_sp (m : MachineState) (v : Word) : (m.setI v).sp = m.sp := rfl
@[simp] theorem MachineState.setI_DT (m : MachineState) (v : Word) : (m.setI v).DT = m.DT := rfl
@[simp] theorem MachineState.setI_ST (m : MachineState) (v : Word) : (m.setI v).ST = m.ST := rfl
@[simp] theorem MachineState.setI_keys (m : MachineState) (v : Word) : (m.setI v).keys = m.keys := rfl
@[simp] theorem MachineState.setI_fb (m : MachineState) (v : Word) : (m.setI v).fb = m.fb := rfl
@[simp] theorem MachineState.setI_trace (m : MachineState) (v : Word) : (m.setI v).trace = m.trace := rfl

@[simp] theorem MachineState.setPc_memory (m : MachineState) (v : Word) : (m.setPc v).memory = m.memory := rfl
@[simp] theorem MachineState.setPc_V (m : MachineState) (v : Word) : (m.setPc v).V = m.V := rfl
@[simp] theorem MachineState.setPc_I (m : MachineState) (v : Word) : (m.setPc v).I = m.I := rfl
@[simp] theorem MachineState.setPc_pc (m : MachineState) (v : Word) : (m.setPc v).pc = v := rfl
@[simp] theorem MachineState.setPc_stack (m : MachineState) (v : Word) : (m.setPc v).stack = m.stack := rfl
@[simp] theorem MachineState.setPc_sp (m : MachineState) (v : Word) : (m.setPc v).sp = m.sp := rfl
@[simp] theorem MachineState.setPc_DT (m : MachineState) (v : Word) : (m.setPc v).DT = m.DT := rfl
@[simp] theorem MachineState.setPc_ST (m : MachineState) (v : Word) : (m.setPc v).ST = m.ST := rfl
@[simp] theorem MachineState.setPc_keys (m : MachineState) (v : Word) : (m.setPc v).keys = m.keys := rfl
@[simp] theorem MachineState.setPc_fb (m : MachineState) (v : Word) : (m.setPc v).fb = m.fb := rfl
@[simp] theorem MachineState.setPc_trace (m : MachineState) (v : Word) : (m.setPc v).trace = m.trace := rfl

@[simp] theorem MachineState.advance_memory (m : MachineState) : (m.advance).memory = m.memory := rfl
@[simp] theorem MachineState.advance_V (m : MachineState) : (m.advance).V = m.V := rfl
@[simp] theorem MachineState.advance_I (m : MachineState) : (m.advance).I = m.I := rfl
@[simp] theorem MachineState.advance_pc (m : MachineState) : (m.advance).pc = m.pc + 2#16 := rfl
@[simp] theorem MachineState.advance_stack (m : MachineState) : (m.advance).stack = m.stack := rfl
@[simp] theorem MachineState.advance_sp (m : MachineState) : (m.advance).sp = m.sp := rfl
@[simp] theorem MachineState.advance_DT (m : MachineState) : (m.advance).DT = m.DT := rfl
@[simp] theorem MachineState.advance_ST (m : MachineState) : (m.advance).ST = m.ST := rfl
@[simp] theorem MachineState.advance_keys (m : MachineState) : (m.advance).keys = m.keys := rfl
@[simp] theorem MachineState.advance_fb (m : MachineState) : (m.advance).fb = m.fb := rfl
@[simp] theorem MachineState.advance_trace (m : MachineState) : (m.advance).trace = m.trace := rfl

@[simp] theorem MachineState.retreat_memory (m : MachineState) : (m.retreat).memory = m.memory := rfl
@[simp] theorem MachineState.retreat_V (m : MachineState) : (m.retreat).V = m.V := rfl
@[simp] theorem MachineState.retreat_I (m : MachineState) : (m.retreat).I = m.I := rfl
@[simp] theorem MachineState.retreat_pc (m : MachineState) : (m.retreat).pc = m.pc - 2#16 := rfl
@[simp] theorem MachineState.retreat_stack (m : MachineState) : (m.retreat).stack = m.stack := rfl
@[simp] theorem MachineState.retreat_sp (m : MachineState) : (m.retreat).sp = m.sp := rfl
@[simp] theorem MachineState.retreat_DT (m : MachineState) : (m.retreat).DT = m.DT := rfl
@[simp] theorem MachineState.retreat_ST (m : MachineState) : (m.retreat).ST = m.ST := rfl
@[simp] theorem MachineState.retreat_keys (m : MachineState) : (m.retreat).keys = m.keys := rfl
@[simp] theorem MachineState.retreat_fb (m : MachineState) : (m.retreat).fb = m.fb := rfl
@[simp] theorem MachineState.retreat_trace (m : MachineState) : (m.retreat).trace = m.trace := rfl

@[simp] theorem MachineState.setDT_memory (m : MachineState) (v : Byte) : (m.setDT v).memory = m.memory := rfl
@[simp] theorem MachineState.setDT_V (m : MachineState) (v : Byte) : (m.setDT v).V = m.V := rfl
@[simp] theorem MachineState.setDT_I (m : MachineState) (v : Byte) : (m.setDT v).I = m.I := rfl
@[simp] theorem MachineState.setDT_pc (m : MachineState) (v : Byte) : (m.setDT v).pc = m.pc := rfl
@[simp] theorem MachineState.setDT_stack (m : MachineState) (v : Byte) : (m.setDT v).stack = m.stack := rfl
@[simp] theorem MachineState.setDT_sp (m : MachineState) (v : Byte) : (m.setDT v).sp = m.sp := rfl
@[simp] theorem MachineState.setDT_DT (m : MachineState) (v : Byte) : (m.setDT v).DT = v := rfl
@[simp] theorem MachineState.setDT_ST (m : MachineState) (v : Byte) : (m.setDT v).ST = m.ST := rfl
@[simp] theorem MachineState.setDT_keys (m : MachineState) (v : Byte) : (m.setDT v).keys = m.keys := rfl
@[simp] theorem MachineState.setDT_fb (m : MachineState) (v : Byte) : (m.setDT v).fb = m.fb := rfl
@[simp] theorem MachineState.setDT_trace (m : MachineState) (v : Byte) : (m.setDT v).trace = m.trace := rfl

@[simp] theorem MachineState.setST_memory (m : MachineState) (v : Byte) : (m.setST v).memory = m.memory := rfl
@[simp] theorem MachineState.setST_V (m : MachineState) (v : Byte) : (m.setST v).V = m.V := rfl
@[simp] theorem MachineState.setST_I (m : MachineState) (v : Byte) : (m.setST v).I = m.I := rfl
@[simp] theorem MachineState.setST_pc (m : MachineState) (v : Byte) : (m.setST v).pc = m.pc := rfl
@[simp] theorem MachineState.setST_stack (m : MachineState) (v : Byte) : (m.setST v).stack = m.stack := rfl
@[simp] theorem MachineState.setST_sp (m : MachineState) (v : Byte) : (m.setST v).sp = m.sp := rfl
@[simp] theorem MachineState.setST_DT (m : MachineState) (v : Byte) : (m.setST v).DT = m.DT := rfl
@[simp] theorem MachineState.setST_ST (m : MachineState) (v : Byte) : (m.setST v).ST = v := rfl
@[simp] theorem MachineState.setST_keys (m : MachineState) (v : Byte) : (m.setST v).keys = m.keys := rfl
@[simp] theorem MachineState.setST_fb (m : MachineState) (v : Byte) : (m.setST v).fb = m.fb := rfl
@[simp] theorem MachineState.setST_trace (m : MachineState) (v : Byte) : (m.setST v).trace = m.trace := rfl

@[simp] theorem MachineState.setKeys_memory (m : MachineState) (ks : Vector Byte 16) : (m.setKeys ks).memory = m.memory := rfl
@[simp] theorem MachineState.setKeys_V (m : MachineState) (ks : Vector Byte 16) : (m.setKeys ks).V = m.V := rfl
@[simp] theorem MachineState.setKeys_I (m : MachineState) (ks : Vector Byte 16) : (m.setKeys ks).I = m.I := rfl
@[simp] theorem MachineState.setKeys_pc (m : MachineState) (ks : Vector Byte 16) : (m.setKeys ks).pc = m.pc := rfl
@[simp] theorem MachineState.setKeys_stack (m : MachineState) (ks : Vector Byte 16) : (m.setKeys ks).stack = m.stack := rfl
@[simp] theorem MachineState.setKeys_sp (m : MachineState) (ks : Vector Byte 16) : (m.setKeys ks).sp = m.sp := rfl
@[simp] theorem MachineState.setKeys_DT (m : MachineState) (ks : Vector Byte 16) : (m.setKeys ks).DT = m.DT := rfl
@[simp] theorem MachineState.setKeys_ST (m : MachineState) (ks : Vector Byte 16) : (m.setKeys ks).ST = m.ST := rfl
@[simp] theorem MachineState.setKeys_keys (m : MachineState) (ks : Vector Byte 16) : (m.setKeys ks).keys = ks := rfl
@[simp] theorem MachineState.setKeys_fb (m : MachineState) (ks : Vector Byte 16) : (m.setKeys ks).fb = m.fb := rfl
@[simp] theorem MachineState.setKeys_trace (m : MachineState) (ks : Vector Byte 16) : (m.setKeys ks).trace = m.trace := rfl

@[simp] theorem MachineState.setFb_memory (m : MachineState) (b : Framebuffer) : (m.setFb b).memory = m.memory := rfl
@[simp] theorem MachineState.setFb_V (m : MachineState) (b : Framebuffer) : (m.setFb b).V = m.V := rfl
@[simp] theorem MachineState.setFb_I (m : MachineState) (b : Framebuffer) : (m.setFb b).I = m.I := rfl
@[simp] theorem MachineState.setFb_pc (m : MachineState) (b : Framebuffer) : (m.setFb b).pc = m.pc := rfl
@[simp] theorem MachineState.setFb_stack (m : MachineState) (b : Framebuffer) : (m.setFb b).stack = m.stack := rfl
@[simp] theorem MachineState.setFb_sp (m : MachineState) (b : Framebuffer) : (m.setFb b).sp = m.sp := rfl
@[simp] theorem MachineState.setFb_DT (m : MachineState) (b : Framebuffer) : (m.setFb b).DT = m.DT := rfl
@[simp] theorem MachineState.setFb_ST (m : MachineState) (b : Framebuffer) : (m.setFb b).ST = m.ST := rfl
@[simp] theorem MachineState.setFb_keys (m : MachineState) (b : Framebuffer) : (m.setFb b).keys = m.keys := rfl
@[simp] theorem MachineState.setFb_fb (m : MachineState) (b : Framebuffer) : (m.setFb b).fb = b := rfl
@[simp] theorem MachineState.setFb_trace (m : MachineState) (b : Framebuffer) : (m.setFb b).trace = m.trace := rfl

@[simp] theorem MachineState.setMemory_memory (m : MachineState) (mem : Memory) : (m.setMemory mem).memory = mem := rfl
@[simp] theorem MachineState.setMemory_V (m : MachineState) (mem : Memory) : (m.setMemory mem).V = m.V := rfl
@[simp] theorem MachineState.setMemory_I (m : MachineState) (mem : Memory) : (m.setMemory mem).I = m.I := rfl
@[simp] theorem MachineState.setMemory_pc (m : MachineState) (mem : Memory) : (m.setMemory mem).pc = m.pc := rfl
@[simp] theorem MachineState.setMemory_stack (m : MachineState) (mem : Memory) : (m.setMemory mem).stack = m.stack := rfl
@[simp] theorem MachineState.setMemory_sp (m : MachineState) (mem : Memory) : (m.setMemory mem).sp = m.sp := rfl
@[simp] theorem MachineState.setMemory_DT (m : MachineState) (mem : Memory) : (m.setMemory mem).DT = m.DT := rfl
@[simp] theorem MachineState.setMemory_ST (m : MachineState) (mem : Memory) : (m.setMemory mem).ST = m.ST := rfl
@[simp] theorem MachineState.setMemory_keys (m : MachineState) (mem : Memory) : (m.setMemory mem).keys = m.keys := rfl
@[simp] theorem MachineState.setMemory_fb (m : MachineState) (mem : Memory) : (m.setMemory mem).fb = m.fb := rfl
@[simp] theorem MachineState.setMemory_trace (m : MachineState) (mem : Memory) : (m.setMemory mem).trace = m.trace := rfl

@[simp] theorem MachineState.setStack_memory (m : MachineState) (st : Vector Word 16) (p : Fin 17) : (m.setStack st p).memory = m.memory := rfl
@[simp] theorem MachineState.setStack_V (m : MachineState) (st : Vector Word 16) (p : Fin 17) : (m.setStack st p).V = m.V := rfl
@[simp] theorem MachineState.setStack_I (m : MachineState) (st : Vector Word 16) (p : Fin 17) : (m.setStack st p).I = m.I := rfl
@[simp] theorem MachineState.setStack_pc (m : MachineState) (st : Vector Word 16) (p : Fin 17) : (m.setStack st p).pc = m.pc := rfl
@[simp] theorem MachineState.setStack_stack (m : MachineState) (st : Vector Word 16) (p : Fin 17) : (m.setStack st p).stack = st := rfl
@[simp] theorem MachineState.setStack_sp (m : MachineState) (st : Vector Word 16) (p : Fin 17) : (m.setStack st p).sp = p := rfl
@[simp] theorem MachineState.setStack_DT (m : MachineState) (st : Vector Word 16) (p : Fin 17) : (m.setStack st p).DT = m.DT := rfl
@[simp] theorem MachineState.setStack_ST (m : MachineState) (st : Vector Word 16) (p : Fin 17) : (m.setStack st p).ST = m.ST := rfl
@[simp] theorem MachineState.setStack_keys (m : MachineState) (st : Vector Word 16) (p : Fin 17) : (m.setStack st p).keys = m.keys := rfl
@[simp] theorem MachineState.setStack_fb (m : MachineState) (st : Vector Word 16) (p : Fin 17) : (m.setStack st p).fb = m.fb := rfl
@[simp] theorem MachineState.setStack_trace (m : MachineState) (st : Vector Word 16) (p : Fin 17) : (m.setStack st p).trace = m.trace := rfl

@[simp] theorem MachineState.pressKey_memory (m : MachineState) (k : Fin 16) : (m.pressKey k).memory = m.memory := rfl
@[simp] theorem MachineState.pressKey_V (m : MachineState) (k : Fin 16) : (m.pressKey k).V = m.V := rfl
@[simp] theorem MachineState.pressKey_I (m : MachineState) (k : Fin 16) : (m.pressKey k).I = m.I := rfl
@[simp] theorem MachineState.pressKey_pc (m : MachineState) (k : Fin 16) : (m.pressKey k).pc = m.pc := rfl
@[simp] theorem MachineState.pressKey_stack (m : MachineState) (k : Fin 16) : (m.pressKey k).stack = m.stack := rfl
@[simp] theorem MachineState.pressKey_sp (m : MachineState) (k : Fin 16) : (m.pressKey k).sp = m.sp := rfl
@[simp] theorem MachineState.pressKey_DT (m : MachineState) (k : Fin 16) : (m.pressKey k).DT = m.DT := rfl
@[simp] theorem MachineState.pressKey_ST (m : MachineState) (k : Fin 16) : (m.pressKey k).ST = m.ST := rfl
@[simp] theorem MachineState.pressKey_keys (m : MachineState) (k : Fin 16) : (m.pressKey k).keys = (Vector.replicate 16 0#8).set k keyPressValue := rfl
@[simp] theorem MachineState.pressKey_fb (m : MachineState) (k : Fin 16) : (m.pressKey k).fb = m.fb := rfl
@[simp] theorem MachineState.pressKey_trace (m : MachineState) (k : Fin 16) : (m.pressKey k).trace = m.trace := rfl

@[simp] theorem MachineState.keyDecay_memory (m : MachineState) : (m.keyDecay).memory = m.memory := rfl
@[simp] theorem MachineState.keyDecay_V (m : MachineState) : (m.keyDecay).V = m.V := rfl
@[simp] theorem MachineState.keyDecay_I (m : MachineState) : (m.keyDecay).I = m.I := rfl
@[simp] theorem MachineState.keyDecay_pc (m : MachineState) : (m.keyDecay).pc = m.pc := rfl
@[simp] theorem MachineState.keyDecay_stack (m : MachineState) : (m.keyDecay).stack = m.stack := rfl
@[simp] theorem MachineState.keyDecay_sp (m : MachineState) : (m.keyDecay).sp = m.sp := rfl
@[simp] theorem MachineState.keyDecay_DT (m : MachineState) : (m.keyDecay).DT = m.DT := rfl
@[simp] theorem MachineState.keyDecay_ST (m : MachineState) : (m.keyDecay).ST = m.ST := rfl
@[simp] theorem MachineState.keyDecay_keys (m : MachineState) : (m.keyDecay).keys = (List.finRange 16).foldl (fun ks (j : Fin 16) => ks.set j (decayed ks[j])) m.keys := rfl
@[simp] theorem MachineState.keyDecay_fb (m : MachineState) : (m.keyDecay).fb = m.fb := rfl
@[simp] theorem MachineState.keyDecay_trace (m : MachineState) : (m.keyDecay).trace = m.trace := rfl

@[simp] theorem MachineState.timerTick_memory (m : MachineState) : (m.timerTick).memory = m.memory := rfl
@[simp] theorem MachineState.timerTick_V (m : MachineState) : (m.timerTick).V = m.V := rfl
@[simp] theorem MachineState.timerTick_I (m : MachineState) : (m.timerTick).I = m.I := rfl
@[simp] theorem MachineState.timerTick_pc (m : MachineState) : (m.timerTick).pc = m.pc := rfl
@[simp] theorem MachineState.timerTick_stack (m : MachineState) : (m.timerTick).stack = m.stack := rfl
@[simp] theorem MachineState.timerTick_sp (m : MachineState) : (m.timerTick).sp = m.sp := rfl
@[simp] theorem MachineState.timerTick_DT (m : MachineState) : (m.timerTick).DT = decayed m.DT := rfl
@[simp] theorem MachineState.timerTick_ST (m : MachineState) : (m.timerTick).ST = m.ST := rfl
@[simp] theorem MachineState.timerTick_keys (m : MachineState) : (m.timerTick).keys = m.keys := rfl
@[simp] theorem MachineState.timerTick_fb (m : MachineState) : (m.timerTick).fb = m.fb := rfl
@[simp] theorem MachineState.timerTick_trace (m : MachineState) : (m.timerTick).trace = m.trace := rfl

/-! ### Updates of the State -/

@[simp] theorem State.retire_current (s : State) (m : MachineState) : (s.retire m).current = { m with trace := Config.traceText s.freeCount } := rfl
@[simp] theorem State.retire_history (s : State) (m : MachineState) : (s.retire m).history = s.history := rfl
@[simp] theorem State.retire_paused (s : State) (m : MachineState) : (s.retire m).paused = s.paused := rfl
@[simp] theorem State.retire_rewind (s : State) (m : MachineState) : (s.retire m).rewind = s.rewind := rfl
@[simp] theorem State.retire_status (s : State) (m : MachineState) : (s.retire m).status = s.status := rfl
@[simp] theorem State.retire_pending (s : State) (m : MachineState) : (s.retire m).pending = s.pending := rfl
@[simp] theorem State.retire_stepCount (s : State) (m : MachineState) : (s.retire m).stepCount = s.stepCount := rfl
@[simp] theorem State.retire_params (s : State) (m : MachineState) : (s.retire m).params = s.params := rfl
@[simp] theorem State.retire_draw (s : State) (m : MachineState) : (s.retire m).draw = s.draw := rfl
@[simp] theorem State.retire_freeCount (s : State) (m : MachineState) : (s.retire m).freeCount = s.freeCount + 1 := rfl

@[simp] theorem State.takeFault_current (s : State) (f : Fault) : (s.takeFault f).current = s.current := rfl
@[simp] theorem State.takeFault_history (s : State) (f : Fault) : (s.takeFault f).history = s.history := rfl
@[simp] theorem State.takeFault_paused (s : State) (f : Fault) : (s.takeFault f).paused = s.paused := rfl
@[simp] theorem State.takeFault_rewind (s : State) (f : Fault) : (s.takeFault f).rewind = s.rewind := rfl
@[simp] theorem State.takeFault_pending (s : State) (f : Fault) : (s.takeFault f).pending = s.pending := rfl
@[simp] theorem State.takeFault_stepCount (s : State) (f : Fault) : (s.takeFault f).stepCount = s.stepCount := rfl
@[simp] theorem State.takeFault_params (s : State) (f : Fault) : (s.takeFault f).params = s.params := rfl
@[simp] theorem State.takeFault_draw (s : State) (f : Fault) : (s.takeFault f).draw = s.draw := rfl
@[simp] theorem State.takeFault_freeCount (s : State) (f : Fault) : (s.takeFault f).freeCount = s.freeCount := rfl

@[simp] theorem State.faultedWith_current (s : State) (f : Fault) (w : Option Word) : (s.faultedWith f w).current = s.current := rfl
@[simp] theorem State.faultedWith_history (s : State) (f : Fault) (w : Option Word) : (s.faultedWith f w).history = s.history := rfl
@[simp] theorem State.faultedWith_paused (s : State) (f : Fault) (w : Option Word) : (s.faultedWith f w).paused = s.paused := rfl
@[simp] theorem State.faultedWith_rewind (s : State) (f : Fault) (w : Option Word) : (s.faultedWith f w).rewind = s.rewind := rfl
@[simp] theorem State.faultedWith_status (s : State) (f : Fault) (w : Option Word) : (s.faultedWith f w).status = .faulted { fault := f, pc := s.current.pc, opcode := w } := rfl
@[simp] theorem State.faultedWith_pending (s : State) (f : Fault) (w : Option Word) : (s.faultedWith f w).pending = s.pending := rfl
@[simp] theorem State.faultedWith_stepCount (s : State) (f : Fault) (w : Option Word) : (s.faultedWith f w).stepCount = s.stepCount := rfl
@[simp] theorem State.faultedWith_params (s : State) (f : Fault) (w : Option Word) : (s.faultedWith f w).params = s.params := rfl
@[simp] theorem State.faultedWith_draw (s : State) (f : Fault) (w : Option Word) : (s.faultedWith f w).draw = s.draw := rfl
@[simp] theorem State.faultedWith_freeCount (s : State) (f : Fault) (w : Option Word) : (s.faultedWith f w).freeCount = s.freeCount := rfl

@[simp] theorem State.dequeued_current (s : State) : (s.dequeued).current = s.current := rfl
@[simp] theorem State.dequeued_history (s : State) : (s.dequeued).history = s.history := rfl
@[simp] theorem State.dequeued_paused (s : State) : (s.dequeued).paused = s.paused := rfl
@[simp] theorem State.dequeued_rewind (s : State) : (s.dequeued).rewind = s.rewind := rfl
@[simp] theorem State.dequeued_status (s : State) : (s.dequeued).status = s.status := rfl
@[simp] theorem State.dequeued_pending (s : State) : (s.dequeued).pending = s.pending.tail := rfl
@[simp] theorem State.dequeued_stepCount (s : State) : (s.dequeued).stepCount = s.stepCount + 1 := rfl
@[simp] theorem State.dequeued_params (s : State) : (s.dequeued).params = s.params := rfl
@[simp] theorem State.dequeued_draw (s : State) : (s.dequeued).draw = s.draw := rfl
@[simp] theorem State.dequeued_freeCount (s : State) : (s.dequeued).freeCount = s.freeCount := rfl

@[simp] theorem State.pushed_current (s : State) : (s.pushed).current = s.current := rfl
@[simp] theorem State.pushed_history (s : State) : (s.pushed).history = pushHistory s.params.historyCapacity s.history s.current := rfl
@[simp] theorem State.pushed_paused (s : State) : (s.pushed).paused = s.paused := rfl
@[simp] theorem State.pushed_rewind (s : State) : (s.pushed).rewind = s.rewind := rfl
@[simp] theorem State.pushed_status (s : State) : (s.pushed).status = s.status := rfl
@[simp] theorem State.pushed_pending (s : State) : (s.pushed).pending = s.pending.tail := rfl
@[simp] theorem State.pushed_stepCount (s : State) : (s.pushed).stepCount = s.stepCount + 1 := rfl
@[simp] theorem State.pushed_params (s : State) : (s.pushed).params = s.params := rfl
@[simp] theorem State.pushed_draw (s : State) : (s.pushed).draw = s.nextEvent.elim s.draw Event.randomByte := rfl
@[simp] theorem State.pushed_freeCount (s : State) : (s.pushed).freeCount = s.freeCount := rfl

@[simp] theorem State.onReset_current (s : State) : (s.onReset).current = initialState s.params := rfl
@[simp] theorem State.onReset_history (s : State) : (s.onReset).history = [] := rfl
@[simp] theorem State.onReset_paused (s : State) : (s.onReset).paused = s.paused := rfl
@[simp] theorem State.onReset_rewind (s : State) : (s.onReset).rewind = 0 := rfl
@[simp] theorem State.onReset_status (s : State) : (s.onReset).status = s.status := rfl
@[simp] theorem State.onReset_pending (s : State) : (s.onReset).pending = s.pending := rfl
@[simp] theorem State.onReset_stepCount (s : State) : (s.onReset).stepCount = s.stepCount := rfl
@[simp] theorem State.onReset_params (s : State) : (s.onReset).params = s.params := rfl
@[simp] theorem State.onReset_draw (s : State) : (s.onReset).draw = s.draw := rfl
@[simp] theorem State.onReset_freeCount (s : State) : (s.onReset).freeCount = s.freeCount := rfl

@[simp] theorem State.fetched_eq (s : State) : s.fetched = s.current.advance := rfl

end Sys2Proof.Machine
end

