-- ==== Sys2Proof/Laws/Display.lean ====
section
/-! SUPPORT. What one sprite pixel and one sprite row do to the framebuffer and the collision flag (R103 to R105). -/

namespace Sys2Proof.Machine

/-- `pixelAt` inside the grid is the pixel. -/
theorem pixelAt_eq (fb : Framebuffer) (row col : Nat) (hr : row < 32) (hc : col < 64) :
    pixelAt fb row col = fb[row][col] := dif_pos ⟨hr, hc⟩

/-- `pixelAt` outside the grid is not lit. -/
theorem pixelAt_outside (fb : Framebuffer) (row col : Nat) (h : ¬(row < 32 ∧ col < 64)) :
    pixelAt fb row col = false := dif_neg h

/-- One pixel is drawn on itself and on no other. -/
theorem pixelAt_drawPixel (st : Framebuffer × Bool) (row col r c : Nat) (bit : Bool) :
    pixelAt (drawPixel st row col bit).1 r c =
      (pixelAt st.1 r c ^^ (decide (r = row ∧ c = col ∧ r < 32 ∧ c < 64) && bit)) := by
  unfold drawPixel
  by_cases h : row < 32 ∧ col < 64
  · rw [dif_pos h]
    by_cases hg : r < 32 ∧ c < 64
    · rw [pixelAt_eq _ _ _ hg.1 hg.2, pixelAt_eq _ _ _ hg.1 hg.2]
      simp only [Vector.getElem_set]
      by_cases hr : row = r
      · subst hr
        by_cases hc : col = c
        · subst hc; simp [hg]
        · simp [hc, Ne.symm hc]
      · simp [hr, Ne.symm hr]
    · rw [pixelAt_outside _ _ _ hg, pixelAt_outside _ _ _ hg]
      have : decide (r = row ∧ c = col ∧ r < 32 ∧ c < 64) = false := by simp; omega
      simp [this]
  · rw [dif_neg h]
    have : decide (r = row ∧ c = col ∧ r < 32 ∧ c < 64) = false := by simp; omega
    simp [this]

/-- One pixel records a collision exactly when it meets a lit pixel of the grid. -/
theorem drawPixel_collision (st : Framebuffer × Bool) (row col : Nat) (bit : Bool) :
    (drawPixel st row col bit).2 = (st.2 || (bit && pixelAt st.1 row col)) := by
  unfold drawPixel pixelAt
  split <;> simp_all

/-- The fold over columns, pixel by pixel: the part of a row drawn from column offset `k` on. -/
theorem drawColumns (x0 row : Nat) (b : Byte) (n k : Nat) (st : Framebuffer × Bool) :
    (∀ r c, pixelAt (((List.range' k n).foldl (fun st c => drawPixel st row (x0 + c) (b.getLsbD (7 - c))) st).1) r c =
      (pixelAt st.1 r c ^^
        (decide (r = row ∧ x0 + k ≤ c ∧ c < x0 + k + n ∧ r < 32 ∧ c < 64) && b.getLsbD (7 - (c - x0))))) ∧
    (((List.range' k n).foldl (fun st c => drawPixel st row (x0 + c) (b.getLsbD (7 - c))) st).2 = true ↔
      st.2 = true ∨ ∃ c, x0 + k ≤ c ∧ c < x0 + k + n ∧ pixelAt st.1 row c = true ∧ b.getLsbD (7 - (c - x0)) = true) := by
  induction n generalizing k st with
  | zero =>
    simp only [List.range'_zero, List.foldl_nil]
    refine ⟨fun r c => ?_, ?_⟩
    · have : decide (r = row ∧ x0 + k ≤ c ∧ c < x0 + k + 0 ∧ r < 32 ∧ c < 64) = false := by simp; omega
      rw [this]; simp
    · refine ⟨Or.inl, ?_⟩
      rintro (h | ⟨c, h1, h2, -⟩)
      · exact h
      · omega
  | succ n ih =>
    rw [List.range'_succ, List.foldl_cons]
    obtain ⟨ih1, ih2⟩ := ih (k + 1) (drawPixel st row (x0 + k) (b.getLsbD (7 - k)))
    refine ⟨fun r c => ?_, ?_⟩
    · rw [ih1, pixelAt_drawPixel]
      by_cases hc : c = x0 + k
      · subst hc
        have e : x0 + k - x0 = k := by omega
        have h1 : decide (r = row ∧ x0 + (k + 1) ≤ x0 + k ∧ x0 + k < x0 + (k + 1) + n ∧ r < 32 ∧ x0 + k < 64) = false := by
          simp
        have h2 : decide (r = row ∧ x0 + k ≤ x0 + k ∧ x0 + k < x0 + k + (n + 1) ∧ r < 32 ∧ x0 + k < 64) =
            decide (r = row ∧ x0 + k = x0 + k ∧ r < 32 ∧ x0 + k < 64) := by simp
        rw [h1, h2, e]; simp
      · have h1 : decide (r = row ∧ c = x0 + k ∧ r < 32 ∧ c < 64) = false := by simp [hc]
        have h2 : decide (r = row ∧ x0 + (k + 1) ≤ c ∧ c < x0 + (k + 1) + n ∧ r < 32 ∧ c < 64) =
            decide (r = row ∧ x0 + k ≤ c ∧ c < x0 + k + (n + 1) ∧ r < 32 ∧ c < 64) := by
          rw [decide_eq_decide]; omega
        rw [h1, h2]; simp
    · rw [ih2, drawPixel_collision]
      simp only [Bool.or_eq_true, Bool.and_eq_true, pixelAt_drawPixel]
      have e : x0 + k - x0 = k := by omega
      constructor
      · rintro ((h | ⟨hb, hp⟩) | ⟨c, h1, h2, h3, h4⟩)
        · exact .inl h
        · exact .inr ⟨x0 + k, by omega, by omega, hp, by rw [e]; exact hb⟩
        · have : decide (True ∧ c = x0 + k ∧ row < 32 ∧ c < 64) = false := by simp; omega
          rw [this] at h3
          exact .inr ⟨c, by omega, by omega, by simpa using h3, h4⟩
      · rintro (h | ⟨c, h1, h2, h3, h4⟩)
        · exact .inl (.inl h)
        · by_cases hc : c = x0 + k
          · subst hc; rw [e] at h4; exact .inl (.inr ⟨h4, h3⟩)
          · have : decide (True ∧ c = x0 + k ∧ row < 32 ∧ c < 64) = false := by simp [hc]
            exact .inr ⟨c, by omega, by omega, by rw [this]; simpa using h3, h4⟩

/-- A sprite row, pixel by pixel (R103, R104). -/
theorem pixelAt_drawRow (st : Framebuffer × Bool) (x0 row : Nat) (b : Byte) (r c : Nat) :
    pixelAt (drawRow st x0 row b).1 r c =
      (pixelAt st.1 r c ^^
        (decide (r = row ∧ x0 ≤ c ∧ c < x0 + 8 ∧ r < 32 ∧ c < 64) && b.getLsbD (7 - (c - x0)))) := by
  rw [drawRow, List.range_eq_range']
  exact (drawColumns x0 row b 8 0 st).1 r c

/-- The collision of a sprite row (R105). -/
theorem drawRow_collision (st : Framebuffer × Bool) (x0 row : Nat) (b : Byte) :
    (drawRow st x0 row b).2 = true ↔
      st.2 = true ∨ ∃ c, x0 ≤ c ∧ c < x0 + 8 ∧ pixelAt st.1 row c = true ∧ b.getLsbD (7 - (c - x0)) = true := by
  rw [drawRow, List.range_eq_range']
  exact (drawColumns x0 row b 8 0 st).2

end Sys2Proof.Machine
end

