-- ==== Sys2Proof/Laws/Regs.lean ====
section
/-! SUPPORT. The registers, the return stack and the ends of an instruction: what each shared operation answers. -/

namespace Sys2Proof.Machine

/-! ### Registers -/

/-- A register read after a register write. -/
theorem MachineState.getV_setV (m : MachineState) (x r : Reg) (v : Byte) :
    (m.setV x v).getV r = if r = x then v else m.getV r := by
  simp only [getV, setV_V, Fin.getElem_fin, Vector.getElem_set, eq_comm (a := x.val), Fin.ext_iff]

/-- A register read depends on the register file only. -/
theorem MachineState.getV_congr {m m' : MachineState} (h : m.V = m'.V) (r : Reg) : m.getV r = m'.getV r := by
  simp only [getV, h]

@[simp] theorem MachineState.getV_advance (m : MachineState) (r : Reg) : m.advance.getV r = m.getV r := rfl
@[simp] theorem MachineState.getV_setPc (m : MachineState) (r : Reg) (v : Word) : (m.setPc v).getV r = m.getV r := rfl
@[simp] theorem MachineState.getV_setI (m : MachineState) (r : Reg) (v : Word) : (m.setI v).getV r = m.getV r := rfl
@[simp] theorem MachineState.getV_setFb (m : MachineState) (r : Reg) (b : Framebuffer) :
    (m.setFb b).getV r = m.getV r := rfl

/-- A register written by `setResultThenFlag`: the flag wins at VF. -/
theorem MachineState.getV_setResultThenFlag (m : MachineState) (x r : Reg) (v f : Byte) :
    (m.setResultThenFlag x v f).getV r = if r = VF then f else if r = x then v else m.getV r := by
  simp only [setResultThenFlag, getV_setV]

/-- `loadRegs` writes the registers from `i` up, in order, and no other. -/
theorem getElem_loadRegs (V : Vector Byte 16) (i : Nat) (vs : List Byte) (r : Nat) (hr : r < 16) :
    (loadRegs V i vs)[r] = if h : i ≤ r ∧ r - i < vs.length then vs[r - i]'h.2 else V[r] := by
  induction vs generalizing V i with
  | nil => simp [loadRegs]
  | cons v rest ih =>
    rw [loadRegs, ih]
    by_cases h1 : i + 1 ≤ r ∧ r - (i + 1) < rest.length
    · have h2 : i ≤ r ∧ r - i < (v :: rest).length := by simp; omega
      rw [dif_pos h1, dif_pos h2]
      have h3 : r - i = r - (i + 1) + 1 := by omega
      simp only [h3, List.getElem_cons_succ]
    · rw [dif_neg h1]
      by_cases h2 : r = i
      · subst h2; simp
      · have h3 : ¬(i ≤ r ∧ r - i < (v :: rest).length) := by simp; omega
        rw [dif_neg h3, Vector.getElem_setIfInBounds_ne _ (by omega)]

/-- `regsUpTo x` is V0 to Vx. -/
theorem MachineState.length_regsUpTo (m : MachineState) (x : Reg) : (m.regsUpTo x).length = x.val + 1 := by
  simp [regsUpTo]

theorem MachineState.getElem_regsUpTo (m : MachineState) (x : Reg) (j : Nat) (h : j < (m.regsUpTo x).length) :
    (m.regsUpTo x)[j] = m.V[j]'(by rw [length_regsUpTo] at h; omega) := by
  simp [regsUpTo]

/-! ### The return stack (R121, R122) -/

theorem MachineState.push_of_lt (m : MachineState) (v : Word) (h : m.sp.val < 16) :
    m.push v = .ok (m.setStack (m.stack.set m.sp.val v) ⟨m.sp.val + 1, by omega⟩) := dif_pos h

theorem MachineState.push_of_full (m : MachineState) (v : Word) (h : m.sp = 16) : m.push v = .error .stackOverflow :=
  dif_neg (by rw [h]; decide)

theorem MachineState.pop_of_pos (m : MachineState) (h : 0 < m.sp.val) :
    m.pop = .ok (m.stack[m.sp.val - 1], m.setStack m.stack ⟨m.sp.val - 1, by omega⟩) := dif_pos h

theorem MachineState.pop_of_empty (m : MachineState) (h : m.sp = 0) : m.pop = .error .stackUnderflow :=
  dif_neg (by rw [h]; decide)

/-! ### Blocks and fetch (R72, R185) -/

theorem MachineState.checkBlock_ok {m : MachineState} {n : Nat} (h : n = 0 ∨ m.I.toNat + n ≤ 0x1000) :
    m.checkBlock n = .ok () := if_pos h

theorem MachineState.checkBlock_error {m : MachineState} {n : Nat} (h : ¬(n = 0 ∨ m.I.toNat + n ≤ 0x1000)) :
    m.checkBlock n = .error (.memoryOutOfRange (max m.I.toNat 0x1000)) := if_neg h

theorem MachineState.fetchWord_ok {m : MachineState} (h : m.pc.toNat ≤ 0xFFE) :
    m.fetchWord = .ok (wordOfBytes (Memory.read m.memory m.pc.toNat) (Memory.read m.memory (m.pc.toNat + 1))) :=
  if_pos (by rw [memSize_eq]; omega)

theorem MachineState.fetchWord_error {m : MachineState} (h : 0xFFE < m.pc.toNat) :
    m.fetchWord = .error (.memoryOutOfRange (max m.pc.toNat 0x1000)) :=
  if_neg (by rw [memSize_eq]; omega)

/-! ### How an instruction ends (R224 to R226, R231) -/

@[simp] theorem State.finish_ok (s : State) (m : MachineState) : s.finish (.ok m) = .next (s.retire m) := rfl

@[simp] theorem State.finish_error (s : State) (f : Fault) : s.finish (.error f) = .next (s.takeFault f) := rfl

/-- Everything `finish` can answer. -/
theorem State.finish_cases {s t : State} {e : Effect} (h : s.finish e = .next t) :
    (∃ m, e = .ok m ∧ t = s.retire m) ∨ ∃ f, e = .error f ∧ t = s.takeFault f := by
  cases e with
  | ok m => exact .inl ⟨m, rfl, by simpa using h.symm⟩
  | error f => exact .inr ⟨f, rfl, by simpa using h.symm⟩

/-- Taking a fault records the word at `pc`, none when it cannot be fetched. -/
theorem State.takeFault_eq (s : State) (f : Fault) :
    s.takeFault f = s.faultedWith f (if s.current.pc.toNat ≤ 0xFFE then
      some (wordOfBytes (Memory.read s.current.memory s.current.pc.toNat)
        (Memory.read s.current.memory (s.current.pc.toNat + 1))) else none) := by
  by_cases h : s.current.pc.toNat ≤ 0xFFE
  · rw [if_pos h, State.takeFault, MachineState.fetchWord_ok h]; rfl
  · rw [if_neg h, State.takeFault, MachineState.fetchWord_error (by omega)]; rfl

end Sys2Proof.Machine
end

