-- ==== Sys2Proof/Laws/Exec.lean ====
section
/-! SUPPORT. Everything an instruction can do: each meaning as the end of its effect, what each shared effect can change
when it answers, and the two ways every instruction ends (R224, R231). -/

namespace Sys2Proof.Machine

/-! ### Each meaning is the end of its effect -/

theorem exec_cls (s : State) :
    exec (.cls) s = s.finish (.ok (s.fetched.setFb blankFramebuffer)) := rfl

theorem exec_ret (s : State) :
    exec (.ret) s = s.finish s.fetched.returnPopped := rfl

theorem exec_sys (nnn : Addr12) (s : State) :
    exec (.sys nnn) s = s.finish (s.fetched.callTo nnn) := rfl

theorem exec_jp (nnn : Addr12) (s : State) :
    exec (.jp nnn) s = s.finish (.ok (s.fetched.setPc (addrWord nnn))) := rfl

theorem exec_call (nnn : Addr12) (s : State) :
    exec (.call nnn) s = s.finish (s.fetched.callTo nnn) := rfl

theorem exec_seImm (x : Reg) (nn : Byte) (s : State) :
    exec (.seImm x nn) s = s.finish (.ok (s.fetched.skipIf (s.fetched.getV x == nn))) := rfl

theorem exec_sneImm (x : Reg) (nn : Byte) (s : State) :
    exec (.sneImm x nn) s = s.finish (.ok (s.fetched.skipIf (s.fetched.getV x != nn))) := rfl

theorem exec_seReg (x y : Reg) (s : State) :
    exec (.seReg x y) s = s.finish (.ok (s.fetched.skipIf (s.fetched.getV x == s.fetched.getV y))) := rfl

theorem exec_ldImm (x : Reg) (nn : Byte) (s : State) :
    exec (.ldImm x nn) s = s.finish (.ok (s.fetched.setV x nn)) := rfl

theorem exec_addImm (x : Reg) (nn : Byte) (s : State) :
    exec (.addImm x nn) s = s.finish (.ok (s.fetched.setV x (s.fetched.getV x + nn))) := rfl

theorem exec_ldReg (x y : Reg) (s : State) :
    exec (.ldReg x y) s = s.finish (.ok (s.fetched.setV x (s.fetched.getV y))) := rfl

theorem exec_orReg (x y : Reg) (s : State) :
    exec (.orReg x y) s = s.finish (.ok (s.fetched.setV x (s.fetched.getV x ||| s.fetched.getV y))) := rfl

theorem exec_andReg (x y : Reg) (s : State) :
    exec (.andReg x y) s = s.finish (.ok (s.fetched.setV x (s.fetched.getV x &&& s.fetched.getV y))) := rfl

theorem exec_xorReg (x y : Reg) (s : State) :
    exec (.xorReg x y) s = s.finish (.ok (s.fetched.setV x (s.fetched.getV x ^^^ s.fetched.getV y))) := rfl

theorem exec_addReg (x y : Reg) (s : State) :
    exec (.addReg x y) s = s.finish (.ok (s.fetched.setResultThenFlag x (s.fetched.getV x + s.fetched.getV y) (addFlag (s.fetched.getV x) (s.fetched.getV y)))) := rfl

theorem exec_sub (x y : Reg) (s : State) :
    exec (.sub x y) s = s.finish (.ok (s.fetched.setResultThenFlag x (s.fetched.getV x - s.fetched.getV y) (subFlag (s.fetched.getV x) (s.fetched.getV y)))) := rfl

theorem exec_shr (x y : Reg) (s : State) :
    exec (.shr x y) s = s.finish (.ok (s.fetched.shiftRight x)) := rfl

theorem exec_subn (x y : Reg) (s : State) :
    exec (.subn x y) s = s.finish (.ok (s.fetched.setResultThenFlag x (s.fetched.getV y - s.fetched.getV x) (subFlag (s.fetched.getV y) (s.fetched.getV x)))) := rfl

theorem exec_shl (x y : Reg) (s : State) :
    exec (.shl x y) s = s.finish (.ok (s.fetched.shiftLeft x)) := rfl

theorem exec_sneReg (x y : Reg) (s : State) :
    exec (.sneReg x y) s = s.finish (.ok (s.fetched.skipIf (s.fetched.getV x != s.fetched.getV y))) := rfl

theorem exec_ldI (nnn : Addr12) (s : State) :
    exec (.ldI nnn) s = s.finish (.ok (s.fetched.setI (addrWord nnn))) := rfl

theorem exec_jpV0 (nnn : Addr12) (s : State) :
    exec (.jpV0 nnn) s = s.finish (.ok (s.fetched.setPc (s.fetched.offsetTarget nnn))) := rfl

theorem exec_rnd (x : Reg) (nn : Byte) (s : State) :
    exec (.rnd x nn) s = s.finish (.ok (s.fetched.setV x (s.draw &&& nn))) := rfl

theorem exec_drw (x y : Reg) (n : Fin 16) (s : State) :
    exec (.drw x y n) s = s.finish (s.fetched.draw x y n.val) := rfl

theorem exec_skp (x : Reg) (s : State) :
    exec (.skp x) s = s.finish (s.fetched.skipIfKey x) := rfl

theorem exec_sknp (x : Reg) (s : State) :
    exec (.sknp x) s = s.finish (s.fetched.skipIfNotKey x) := rfl

theorem exec_ldVxDT (x : Reg) (s : State) :
    exec (.ldVxDT x) s = s.finish (.ok (s.fetched.setV x s.fetched.DT)) := rfl

theorem exec_ldVxK (x : Reg) (s : State) :
    exec (.ldVxK x) s = s.finish (.ok (s.fetched.waitKey x)) := rfl

theorem exec_ldDTVx (x : Reg) (s : State) :
    exec (.ldDTVx x) s = s.finish (.ok (s.fetched.setDT (s.fetched.getV x))) := rfl

theorem exec_ldSTVx (x : Reg) (s : State) :
    exec (.ldSTVx x) s = s.finish (.ok (s.fetched.setST (s.fetched.getV x))) := rfl

theorem exec_addI (x : Reg) (s : State) :
    exec (.addI x) s = s.finish (.ok (s.fetched.setI (s.fetched.indexPlus x))) := rfl

theorem exec_ldF (x : Reg) (s : State) :
    exec (.ldF x) s = s.finish (.ok (s.fetched.setI (s.fetched.glyphAddr x))) := rfl

theorem exec_ldB (x : Reg) (s : State) :
    exec (.ldB x) s = s.finish (s.fetched.storeBlock (bcdDigits (s.fetched.getV x))) := rfl

theorem exec_ldMemVx (x : Reg) (s : State) :
    exec (.ldMemVx x) s = s.finish (s.fetched.storeBlock (s.fetched.regsUpTo x)) := rfl

theorem exec_ldVxMem (x : Reg) (s : State) :
    exec (.ldVxMem x) s = s.finish (s.fetched.loadUpTo x) := rfl

/-- The effect of each instruction's own pseudocode, before `finish` ends it: the table of the theorems above. -/
def State.effectOf (s : State) (i : Instr) : Effect :=
  match i with
  | .cls => .ok (s.fetched.setFb blankFramebuffer)
  | .ret => s.fetched.returnPopped
  | .sys nnn => s.fetched.callTo nnn
  | .jp nnn => .ok (s.fetched.setPc (addrWord nnn))
  | .call nnn => s.fetched.callTo nnn
  | .seImm x nn => .ok (s.fetched.skipIf (s.fetched.getV x == nn))
  | .sneImm x nn => .ok (s.fetched.skipIf (s.fetched.getV x != nn))
  | .seReg x y => .ok (s.fetched.skipIf (s.fetched.getV x == s.fetched.getV y))
  | .ldImm x nn => .ok (s.fetched.setV x nn)
  | .addImm x nn => .ok (s.fetched.setV x (s.fetched.getV x + nn))
  | .ldReg x y => .ok (s.fetched.setV x (s.fetched.getV y))
  | .orReg x y => .ok (s.fetched.setV x (s.fetched.getV x ||| s.fetched.getV y))
  | .andReg x y => .ok (s.fetched.setV x (s.fetched.getV x &&& s.fetched.getV y))
  | .xorReg x y => .ok (s.fetched.setV x (s.fetched.getV x ^^^ s.fetched.getV y))
  | .addReg x y => .ok (s.fetched.setResultThenFlag x (s.fetched.getV x + s.fetched.getV y) (addFlag (s.fetched.getV x) (s.fetched.getV y)))
  | .sub x y => .ok (s.fetched.setResultThenFlag x (s.fetched.getV x - s.fetched.getV y) (subFlag (s.fetched.getV x) (s.fetched.getV y)))
  | .shr x _ => .ok (s.fetched.shiftRight x)
  | .subn x y => .ok (s.fetched.setResultThenFlag x (s.fetched.getV y - s.fetched.getV x) (subFlag (s.fetched.getV y) (s.fetched.getV x)))
  | .shl x _ => .ok (s.fetched.shiftLeft x)
  | .sneReg x y => .ok (s.fetched.skipIf (s.fetched.getV x != s.fetched.getV y))
  | .ldI nnn => .ok (s.fetched.setI (addrWord nnn))
  | .jpV0 nnn => .ok (s.fetched.setPc (s.fetched.offsetTarget nnn))
  | .rnd x nn => .ok (s.fetched.setV x (s.draw &&& nn))
  | .drw x y n => s.fetched.draw x y n.val
  | .skp x => s.fetched.skipIfKey x
  | .sknp x => s.fetched.skipIfNotKey x
  | .ldVxDT x => .ok (s.fetched.setV x s.fetched.DT)
  | .ldVxK x => .ok (s.fetched.waitKey x)
  | .ldDTVx x => .ok (s.fetched.setDT (s.fetched.getV x))
  | .ldSTVx x => .ok (s.fetched.setST (s.fetched.getV x))
  | .addI x => .ok (s.fetched.setI (s.fetched.indexPlus x))
  | .ldF x => .ok (s.fetched.setI (s.fetched.glyphAddr x))
  | .ldB x => s.fetched.storeBlock (bcdDigits (s.fetched.getV x))
  | .ldMemVx x => s.fetched.storeBlock (s.fetched.regsUpTo x)
  | .ldVxMem x => s.fetched.loadUpTo x

/-- Every instruction is the end of its effect. -/
theorem exec_eq_finish (i : Instr) (s : State) : exec i s = s.finish (s.effectOf i) := by
  cases i <;> rfl

/-- Everything an instruction can do: retire the MachineState of its effect, or take its fault (R231). -/
theorem exec_cases {i : Instr} {s t : State} (h : exec i s = .next t) :
    (∃ m, s.effectOf i = .ok m ∧ t = s.retire m) ∨ ∃ f, s.effectOf i = .error f ∧ t = s.takeFault f :=
  State.finish_cases (exec_eq_finish i s ▸ h)

/-! ### What each shared effect can change when it answers -/

theorem MachineState.push_cases {m m' : MachineState} {v : Word} (h : m.push v = .ok m') :
    ∃ st p, m' = m.setStack st p := by
  unfold push at h
  split at h
  · cases h; exact ⟨_, _, rfl⟩
  · cases h

theorem MachineState.pop_cases {m m' : MachineState} {v : Word} (h : m.pop = .ok (v, m')) :
    ∃ p, m' = m.setStack m.stack p := by
  unfold pop at h
  split at h
  · cases h; exact ⟨_, rfl⟩
  · cases h

theorem MachineState.callTo_cases {m m' : MachineState} {a : Addr12} (h : m.callTo a = .ok m') :
    ∃ st p v, m' = (m.setStack st p).setPc v := by
  unfold callTo at h
  split at h
  · rename_i hp
    cases h
    obtain ⟨st, p, rfl⟩ := push_cases hp
    exact ⟨_, _, _, rfl⟩
  · cases h

theorem MachineState.returnPopped_cases {m m' : MachineState} (h : m.returnPopped = .ok m') :
    ∃ p v, m' = (m.setStack m.stack p).setPc v := by
  unfold returnPopped at h
  split at h
  · rename_i hp
    cases h
    obtain ⟨p, rfl⟩ := pop_cases hp
    exact ⟨_, _, rfl⟩
  · cases h

theorem MachineState.checkBlock_cases {m : MachineState} {n : Nat} {u : Unit} (h : m.checkBlock n = .ok u) :
    n = 0 ∨ m.I.toNat + n ≤ 0x1000 := by
  by_contra hc
  rw [checkBlock_error hc] at h
  cases h

theorem MachineState.storeBlock_cases {m m' : MachineState} {vs : List Byte} (h : m.storeBlock vs = .ok m') :
    (vs.length = 0 ∨ m.I.toNat + vs.length ≤ 0x1000) ∧
      m' = m.setMemory (Memory.writeList m.memory m.I.toNat vs) := by
  unfold storeBlock at h
  split at h
  · rename_i hc
    cases h
    exact ⟨checkBlock_cases hc, rfl⟩
  · cases h

theorem MachineState.loadBlock_cases {m : MachineState} {n : Nat} {vs : List Byte} (h : m.loadBlock n = .ok vs) :
    vs = Memory.readList m.memory m.I.toNat n := by
  unfold loadBlock at h
  split at h
  · cases h; rfl
  · cases h

theorem MachineState.loadUpTo_cases {m m' : MachineState} {x : Reg} (h : m.loadUpTo x = .ok m') :
    m' = { m with V := loadRegs m.V 0 (Memory.readList m.memory m.I.toNat (x.val + 1)) } := by
  unfold loadUpTo at h
  split at h
  · rename_i hb
    cases h
    rw [loadBlock_cases hb]
  · cases h

theorem MachineState.draw_cases {m m' : MachineState} {x y : Reg} {n : Nat} (h : m.draw x y n = .ok m') :
    ∃ fb v, m' = (m.setFb fb).setV VF v := by
  unfold draw at h
  split at h
  · cases h; exact ⟨_, _, rfl⟩
  · cases h

theorem MachineState.skipIf_cases (m : MachineState) (c : Bool) : ∃ v, m.skipIf c = m.setPc v := by
  cases c
  · exact ⟨m.pc, rfl⟩
  · exact ⟨_, rfl⟩

theorem MachineState.skipIfKey_cases {m m' : MachineState} {x : Reg} (h : m.skipIfKey x = .ok m') :
    ∃ v, m' = m.setPc v := by
  unfold skipIfKey at h
  split at h
  · cases h; exact skipIf_cases _ _
  · cases h

theorem MachineState.skipIfNotKey_cases {m m' : MachineState} {x : Reg} (h : m.skipIfNotKey x = .ok m') :
    ∃ v, m' = m.setPc v := by
  unfold skipIfNotKey at h
  split at h
  · cases h; exact skipIf_cases _ _
  · cases h

theorem MachineState.waitKey_cases (m : MachineState) (x : Reg) :
    (∃ v, m.waitKey x = m.setV x v) ∨ m.waitKey x = m.retreat := by
  unfold waitKey
  split
  · exact .inl ⟨_, rfl⟩
  · exact .inr rfl

end Sys2Proof.Machine
end

