-- ==== Sys2Proof/Laws/Keys.lean ====
section
/-! SUPPORT. The key table's operations, counter by counter (R200 to R203), and the operands and choice that the key
instructions make (R204, R207). -/

namespace Sys2Proof.Machine

/-- A decay is the saturating subtraction of 1. -/
theorem toNat_decayed (v : Byte) : (decayed v).toNat = v.toNat - 1 := by
  unfold decayed
  split
  · subst_vars; rfl
  · rename_i h
    have h0 : v.toNat ≠ 0 := fun e => h (BitVec.eq_of_toNat_eq e)
    have := v.isLt
    rw [BitVec.toNat_sub]; simp; omega

/-- Folding a per-counter update over a list of counters without repeats updates exactly those. -/
theorem getElem_foldl_set (l : List (Fin 16)) (hl : l.Nodup) (f : Byte → Byte) (ks : Vector Byte 16) (j : Fin 16) :
    (l.foldl (fun ks (j : Fin 16) => ks.set j (f ks[j])) ks)[j] = if j ∈ l then f ks[j] else ks[j] := by
  induction l generalizing ks with
  | nil => simp
  | cons a l ih =>
    simp only [List.nodup_cons] at hl
    rw [List.foldl_cons, ih hl.2]
    simp only [Fin.getElem_fin, Vector.getElem_set, List.mem_cons]
    by_cases ha : a = j
    · subst ha; simp [hl.1]
    · have : ¬ a.val = j.val := fun e => ha (Fin.ext e)
      simp [this, Ne.symm ha]

/-- `key_decay` decays every counter (R202). -/
theorem MachineState.keys_keyDecay (m : MachineState) (j : Fin 16) : m.keyDecay.keys[j] = decayed m.keys[j] := by
  rw [keyDecay_keys, getElem_foldl_set _ (List.nodup_finRange 16)]
  simp

/-- `press_key` clears all counters but the key's (R201). -/
theorem MachineState.keys_pressKey (m : MachineState) (k j : Fin 16) :
    (m.pressKey k).keys[j] = if j = k then 2#8 else 0#8 := by
  simp only [pressKey_keys, keyPressValue_eq, Fin.getElem_fin, Vector.getElem_set, Vector.getElem_replicate,
    eq_comm (a := k.val), Fin.ext_iff]

/-- The lowest active key, when there is one. -/
theorem MachineState.lowestActive_eq_some {m : MachineState} {k : Fin 16} (h : m.keyActive k = true)
    (hlow : ∀ j, j < k → m.keyActive j = false) : m.lowestActive = some k := by
  rw [lowestActive, List.find?_eq_some_iff_getElem]
  refine ⟨h, k.val, by simp, by simp, fun j hj => ?_⟩
  simp only [List.getElem_finRange, Bool.not_eq_true']
  simpa using hlow ⟨j, by omega⟩ (by simpa [Fin.lt_def] using hj)

/-- No active key. -/
theorem MachineState.lowestActive_eq_none {m : MachineState} (h : ∀ j, m.keyActive j = false) :
    m.lowestActive = none := by
  simp [lowestActive, h]

/-- Active is a counter above 0 (R200). -/
theorem MachineState.keyActive_iff (m : MachineState) (k : Fin 16) : m.keyActive k = true ↔ 0 < m.keys[k].toNat := by
  simp only [keyActive, bne_iff_ne, ne_eq, Nat.pos_iff_ne_zero, not_iff_not]
  exact ⟨fun h => by rw [h]; rfl, fun h => BitVec.eq_of_toNat_eq h⟩

/-- A key operand in range. -/
theorem MachineState.keyOperand_ok {m : MachineState} {x : Reg} {k : Fin 16} (h : (m.getV x).toNat = k.val) :
    m.keyOperand x = .ok k := by
  have hk : (m.getV x).toNat < 16 := by omega
  rw [keyOperand, dif_pos hk]
  exact congrArg Except.ok (Fin.ext h)

/-- A key operand out of range. -/
theorem MachineState.keyOperand_error {m : MachineState} {x : Reg} (h : 15 < (m.getV x).toNat) :
    m.keyOperand x = .error (.keyIndexOutOfRange (m.getV x)) := dif_neg (by omega)

end Sys2Proof.Machine
end

