-- ==== Sys2Proof/Laws/Memory.lean ====
section
/-! SUPPORT. The laws of memory: what a read gives after a write, and that every operation keeps the canonical form. -/

namespace Sys2Proof.Machine

/-- An address below the lower bound of a canonical list is not listed. -/
theorem Memory.read_of_wfFrom_lt {m : Memory} {lo a : Nat} (h : Memory.wfFrom lo m = true) (ha : a < lo) :
    Memory.read m a = resetByte a := by
  induction m generalizing lo with
  | nil => rfl
  | cons c rest ih =>
    obtain ⟨b, v⟩ := c
    simp only [Memory.wfFrom, Bool.and_eq_true, decide_eq_true_eq] at h
    obtain ⟨⟨⟨h1, -⟩, -⟩, h4⟩ := h
    rw [Memory.read, if_neg (by omega)]
    exact ih h4 (by omega)

/-- A write leaves every other address alone. -/
theorem Memory.read_write_of_ne (m : Memory) {a b : Nat} (v : Byte) (h : b ≠ a) :
    Memory.read (Memory.write m a v) b = Memory.read m b := by
  induction m with
  | nil => unfold Memory.write; split <;> simp [Memory.read, h]
  | cons c rest ih =>
    obtain ⟨e, w⟩ := c
    unfold Memory.write
    split
    · split <;> simp [Memory.read, h]
    · split
      · subst e; split <;> simp [Memory.read, h]
      · simp only [Memory.read, ih]

theorem Memory.read_write_self_aux {m : Memory} {lo a : Nat} (v : Byte) (h : Memory.wfFrom lo m = true) :
    Memory.read (Memory.write m a v) a = v := by
  induction m generalizing lo with
  | nil => unfold Memory.write; split <;> simp_all [Memory.read]
  | cons c rest ih =>
    obtain ⟨e, w⟩ := c
    have h' := h
    simp only [Memory.wfFrom, Bool.and_eq_true, decide_eq_true_eq] at h
    obtain ⟨⟨⟨h1, -⟩, -⟩, h4⟩ := h
    unfold Memory.write
    split
    · rename_i hlt
      split
      · rw [Memory.read, if_neg (by omega), Memory.read_of_wfFrom_lt h4 (by omega)]; simp_all
      · simp [Memory.read]
    · split
      · subst e
        split
        · rw [Memory.read_of_wfFrom_lt h4 (by omega)]; simp_all
        · simp [Memory.read]
      · rw [Memory.read, if_neg (by omega)]; exact ih h4

/-- In a canonical memory a write is read back. -/
theorem Memory.read_write_self {m : Memory} (a : Nat) (v : Byte) (h : Memory.wf m = true) :
    Memory.read (Memory.write m a v) a = v := Memory.read_write_self_aux v h

theorem Memory.wfFrom_mono {m : Memory} {lo lo' : Nat} (h : Memory.wfFrom lo m = true) (hl : lo' ≤ lo) :
    Memory.wfFrom lo' m = true := by
  cases m with
  | nil => rfl
  | cons c rest =>
    simp only [Memory.wfFrom, Bool.and_eq_true, decide_eq_true_eq] at h ⊢
    exact ⟨⟨⟨by omega, h.1.1.2⟩, h.1.2⟩, h.2⟩

theorem Memory.wfFrom_write {m : Memory} {lo a : Nat} (v : Byte) (h : Memory.wfFrom lo m = true) (hl : lo ≤ a)
    (ha : a < 0x1000) : Memory.wfFrom lo (Memory.write m a v) = true := by
  induction m generalizing lo with
  | nil => unfold Memory.write; split <;> simp_all [Memory.wfFrom]
  | cons c rest ih =>
    obtain ⟨e, w⟩ := c
    have h' := h
    simp only [Memory.wfFrom, Bool.and_eq_true, decide_eq_true_eq] at h
    obtain ⟨⟨⟨h1, h2⟩, h3⟩, h4⟩ := h
    unfold Memory.write
    split
    · split
      · exact h'
      · simp only [Memory.wfFrom, Bool.and_eq_true, decide_eq_true_eq]
        exact ⟨⟨⟨hl, ha⟩, by assumption⟩, ⟨⟨⟨by omega, h2⟩, h3⟩, h4⟩⟩
    · split
      · subst e
        split
        · exact Memory.wfFrom_mono h4 (by omega)
        · simp only [Memory.wfFrom, Bool.and_eq_true, decide_eq_true_eq]
          exact ⟨⟨⟨hl, ha⟩, by assumption⟩, h4⟩
      · simp only [Memory.wfFrom, Bool.and_eq_true, decide_eq_true_eq]
        exact ⟨⟨⟨h1, h2⟩, h3⟩, ih h4 (by omega)⟩

/-- A write in range keeps the canonical form. -/
theorem Memory.wf_write {m : Memory} {a : Nat} (v : Byte) (h : Memory.wf m = true) (ha : a < 0x1000) :
    Memory.wf (Memory.write m a v) = true := Memory.wfFrom_write v h (by omega) ha

/-- A block written in range keeps the canonical form. -/
theorem Memory.wf_writeList {m : Memory} {a : Nat} {vs : List Byte} (h : Memory.wf m = true)
    (ha : vs = [] ∨ a + vs.length ≤ 0x1000) : Memory.wf (Memory.writeList m a vs) = true := by
  induction vs generalizing m a with
  | nil => exact h
  | cons v rest ih =>
    simp only [reduceCtorEq, List.length_cons, false_or] at ha
    exact ih (Memory.wf_write v h (by omega)) (Or.inr (by omega))

/-- A block written leaves every address outside it alone. -/
theorem Memory.read_writeList_outside (m : Memory) {a b : Nat} (vs : List Byte) (h : b < a ∨ a + vs.length ≤ b) :
    Memory.read (Memory.writeList m a vs) b = Memory.read m b := by
  induction vs generalizing m a with
  | nil => rfl
  | cons v rest ih =>
    simp only [List.length_cons] at h
    rw [Memory.writeList, ih _ (by omega), Memory.read_write_of_ne _ _ (by omega)]

/-- A block written in a canonical memory is read back, byte by byte. -/
theorem Memory.read_writeList_inside {m : Memory} {a : Nat} {vs : List Byte} (h : Memory.wf m = true)
    (ha : a + vs.length ≤ 0x1000) (j : Nat) (hj : j < vs.length) :
    Memory.read (Memory.writeList m a vs) (a + j) = vs[j] := by
  induction vs generalizing m a j with
  | nil => simp at hj
  | cons v rest ih =>
    simp only [List.length_cons] at ha hj
    rw [Memory.writeList]
    cases j with
    | zero =>
      rw [Memory.read_writeList_outside _ _ (by omega)]
      exact Memory.read_write_self _ _ h
    | succ k =>
      have := ih (m := Memory.write m a v) (a := a + 1) (Memory.wf_write v h (by omega)) (by omega) k (by omega)
      rw [show a + (k + 1) = a + 1 + k by omega, this]; rfl

/-- Everything a block write does to every address. -/
theorem Memory.read_writeList {m : Memory} {a : Nat} {vs : List Byte} (h : Memory.wf m = true)
    (ha : a + vs.length ≤ 0x1000) (b : Nat) :
    Memory.read (Memory.writeList m a vs) b =
      if a ≤ b ∧ b < a + vs.length then vs.getD (b - a) 0#8 else Memory.read m b := by
  split
  · rename_i hb
    have hj : b - a < vs.length := by omega
    have key := Memory.read_writeList_inside h ha (b - a) hj
    rw [show a + (b - a) = b by omega] at key
    rw [key, List.getD_eq_getElem _ _ hj]
  · exact Memory.read_writeList_outside m vs (by omega)

@[simp] theorem Memory.length_readList (m : Memory) (a n : Nat) : (Memory.readList m a n).length = n := by
  simp [Memory.readList]

@[simp] theorem Memory.getElem_readList (m : Memory) (a n j : Nat) (h : j < (Memory.readList m a n).length) :
    (Memory.readList m a n)[j] = Memory.read m (a + j) := by
  simp [Memory.readList]

/-- Reset memory is canonical: it lists nothing. -/
theorem reset_memory_wf : Memory.wf State.reset.current.memory = true := by decide

end Sys2Proof.Machine
end

