-- ==== Sys2Proof/Laws/Words.lean ====
section
/-! SUPPORT. The value of an assembled word and of each field of a word (R71), and the bytes of a word (R70). -/

namespace Sys2Proof

/-- Appending is positional. -/
theorem toNat_append_eq {n k : Nat} (a : BitVec n) (b : BitVec k) : (a ++ b).toNat = a.toNat * 2 ^ k + b.toNat := by
  rw [BitVec.toNat_append, ← Nat.shiftLeft_add_eq_or_of_lt b.isLt, Nat.shiftLeft_eq]

theorem wordNNN_toNat (g : BitVec 4) (a : Addr12) : (wordNNN g a).toNat = g.toNat * 4096 + a.toNat :=
  toNat_append_eq g a

@[simp] theorem regBits_toNat (r : Reg) : (regBits r).toNat = r.val := by
  simp [regBits]

theorem wordXNN_toNat (g : BitVec 4) (x : Reg) (nn : Byte) :
    (wordXNN g x nn).toNat = g.toNat * 4096 + x.val * 256 + nn.toNat := by
  have h : (regBits x ++ nn : BitVec 12).toNat = x.val * 256 + nn.toNat := by
    rw [← regBits_toNat x]; exact toNat_append_eq (regBits x) nn
  rw [wordXNN, wordNNN_toNat, h]; omega

theorem wordXYN_toNat (g : BitVec 4) (x y : Reg) (n : BitVec 4) :
    (wordXYN g x y n).toNat = g.toNat * 4096 + x.val * 256 + y.val * 16 + n.toNat := by
  have h : (regBits y ++ n : BitVec 8).toNat = y.val * 16 + n.toNat := by
    rw [← regBits_toNat y]; exact toNat_append_eq (regBits y) n
  rw [wordXYN, wordXNN_toNat, h]; omega

theorem fieldGroup_toNat (w : Word) : (fieldGroup w).toNat = w.toNat / 4096 := by
  have := w.isLt
  simp [fieldGroup, Nat.shiftRight_eq_div_pow]; omega

theorem fieldX_val (w : Word) : (fieldX w).val = w.toNat / 256 % 16 := by
  simp [fieldX, Nat.shiftRight_eq_div_pow]

theorem fieldY_val (w : Word) : (fieldY w).val = w.toNat / 16 % 16 := by
  simp [fieldY, Nat.shiftRight_eq_div_pow]

theorem fieldN_toNat (w : Word) : (fieldN w).toNat = w.toNat % 16 := by
  simp [fieldN]

theorem fieldNN_toNat (w : Word) : (fieldNN w).toNat = w.toNat % 256 := by
  simp [fieldNN]

theorem fieldNNN_toNat (w : Word) : (fieldNNN w).toNat = w.toNat % 4096 := by
  simp [fieldNNN]

/-! ### The fields of assembled words -/

@[simp] theorem fieldGroup_wordNNN (g : BitVec 4) (a : Addr12) : fieldGroup (wordNNN g a) = g := by
  apply BitVec.eq_of_toNat_eq
  have := a.isLt
  rw [fieldGroup_toNat, wordNNN_toNat]; omega

@[simp] theorem fieldNNN_wordNNN (g : BitVec 4) (a : Addr12) : fieldNNN (wordNNN g a) = a := by
  apply BitVec.eq_of_toNat_eq
  have := a.isLt
  rw [fieldNNN_toNat, wordNNN_toNat]; omega

@[simp] theorem fieldGroup_wordXNN (g : BitVec 4) (x : Reg) (nn : Byte) : fieldGroup (wordXNN g x nn) = g :=
  fieldGroup_wordNNN _ _

@[simp] theorem fieldX_wordXNN (g : BitVec 4) (x : Reg) (nn : Byte) : fieldX (wordXNN g x nn) = x := by
  apply Fin.ext
  have := nn.isLt; have := x.isLt
  rw [fieldX_val, wordXNN_toNat]; omega

@[simp] theorem fieldNN_wordXNN (g : BitVec 4) (x : Reg) (nn : Byte) : fieldNN (wordXNN g x nn) = nn := by
  apply BitVec.eq_of_toNat_eq
  have := nn.isLt; have := x.isLt
  rw [fieldNN_toNat, wordXNN_toNat]; omega

@[simp] theorem fieldGroup_wordXYN (g : BitVec 4) (x y : Reg) (n : BitVec 4) : fieldGroup (wordXYN g x y n) = g :=
  fieldGroup_wordXNN _ _ _

@[simp] theorem fieldX_wordXYN (g : BitVec 4) (x y : Reg) (n : BitVec 4) : fieldX (wordXYN g x y n) = x :=
  fieldX_wordXNN _ _ _

@[simp] theorem fieldY_wordXYN (g : BitVec 4) (x y : Reg) (n : BitVec 4) : fieldY (wordXYN g x y n) = y := by
  apply Fin.ext
  have := n.isLt; have := x.isLt; have := y.isLt
  rw [fieldY_val, wordXYN_toNat]; omega

@[simp] theorem fieldN_wordXYN (g : BitVec 4) (x y : Reg) (n : BitVec 4) : fieldN (wordXYN g x y n) = n := by
  apply BitVec.eq_of_toNat_eq
  have := n.isLt; have := x.isLt; have := y.isLt
  rw [fieldN_toNat, wordXYN_toNat]; omega

/-! ### Every word is its fields -/

theorem word_eq_wordNNN (w : Word) : w = wordNNN (fieldGroup w) (fieldNNN w) := by
  apply BitVec.eq_of_toNat_eq
  rw [wordNNN_toNat, fieldGroup_toNat, fieldNNN_toNat]; omega

theorem word_eq_wordXNN (w : Word) : w = wordXNN (fieldGroup w) (fieldX w) (fieldNN w) := by
  apply BitVec.eq_of_toNat_eq
  rw [wordXNN_toNat, fieldGroup_toNat, fieldX_val, fieldNN_toNat]; omega

theorem word_eq_wordXYN (w : Word) : w = wordXYN (fieldGroup w) (fieldX w) (fieldY w) (fieldN w) := by
  apply BitVec.eq_of_toNat_eq
  rw [wordXYN_toNat, fieldGroup_toNat, fieldX_val, fieldY_val, fieldN_toNat]; omega

/-! ### The masks of the opcode map (R76) -/

theorem wordNNN_and (g g' : BitVec 4) (a a' : Addr12) : wordNNN g a &&& wordNNN g' a' = wordNNN (g &&& g') (a &&& a') :=
  BitVec.and_append

theorem wordXNN_and (g g' : BitVec 4) (x x' : Reg) (n n' : Byte) :
    wordXNN g x n &&& wordXNN g' x' n' = wordNNN (g &&& g') ((regBits x &&& regBits x') ++ (n &&& n')) := by
  rw [wordXNN, wordXNN, wordNNN_and]; exact congrArg _ BitVec.and_append

theorem wordXYN_and (g g' : BitVec 4) (x x' y y' : Reg) (n n' : BitVec 4) :
    wordXYN g x y n &&& wordXYN g' x' y' n' =
      wordNNN (g &&& g') ((regBits x &&& regBits x') ++ ((regBits y &&& regBits y') ++ (n &&& n') : BitVec 8)) := by
  rw [wordXYN, wordXYN, wordXNN_and]; exact congrArg (fun b : BitVec 8 => wordNNN _ (_ ++ b)) BitVec.and_append

theorem and_F (a : BitVec 4) : a &&& 0xF#4 = a := by
  rw [show 0xF#4 = BitVec.allOnes 4 from rfl, BitVec.and_allOnes]

theorem and_FF (a : BitVec 8) : a &&& 0xFF#8 = a := by
  rw [show 0xFF#8 = BitVec.allOnes 8 from rfl, BitVec.and_allOnes]

theorem and_F000 (w : Word) : w &&& 0xF000#16 = wordNNN (fieldGroup w) 0#12 := by
  conv => lhs; rw [word_eq_wordNNN w, show 0xF000#16 = wordNNN 0xF#4 0#12 from rfl, wordNNN_and]
  rw [and_F, BitVec.and_zero]

theorem and_F0FF (w : Word) : w &&& 0xF0FF#16 = wordXNN (fieldGroup w) 0 (fieldNN w) := by
  conv => lhs; rw [word_eq_wordXNN w, show 0xF0FF#16 = wordXNN 0xF#4 0 0xFF#8 from rfl, wordXNN_and]
  rw [and_F, and_FF,
    show regBits (fieldX w) &&& regBits 0 = 0#4 by simp [regBits]]
  rfl

theorem and_F00F (w : Word) : w &&& 0xF00F#16 = wordXYN (fieldGroup w) 0 0 (fieldN w) := by
  conv => lhs; rw [word_eq_wordXYN w, show 0xF00F#16 = wordXYN 0xF#4 0 0 0xF#4 from rfl, wordXYN_and]
  rw [and_F, and_F,
    show regBits (fieldX w) &&& regBits 0 = 0#4 by simp [regBits],
    show regBits (fieldY w) &&& regBits 0 = 0#4 by simp [regBits]]
  rfl

theorem wordNNN_and_F000 (g : BitVec 4) (a : Addr12) : wordNNN g a &&& 0xF000#16 = wordNNN g 0#12 := by
  rw [and_F000, fieldGroup_wordNNN]

theorem wordXNN_and_F000 (g : BitVec 4) (x : Reg) (nn : Byte) : wordXNN g x nn &&& 0xF000#16 = wordNNN g 0#12 :=
  wordNNN_and_F000 _ _

theorem wordXYN_and_F000 (g : BitVec 4) (x y : Reg) (n : BitVec 4) :
    wordXYN g x y n &&& 0xF000#16 = wordNNN g 0#12 := wordNNN_and_F000 _ _

theorem wordXNN_and_F0FF (g : BitVec 4) (x : Reg) (nn : Byte) : wordXNN g x nn &&& 0xF0FF#16 = wordXNN g 0 nn := by
  rw [and_F0FF, fieldGroup_wordXNN, fieldNN_wordXNN]

theorem wordXYN_and_F00F (g : BitVec 4) (x y : Reg) (n : BitVec 4) :
    wordXYN g x y n &&& 0xF00F#16 = wordXYN g 0 0 n := by
  rw [and_F00F, fieldGroup_wordXYN, fieldN_wordXYN]

/-! ### Bytes -/

theorem wordOfBytes_toNat (hi lo : Byte) : (wordOfBytes hi lo).toNat = hi.toNat * 256 + lo.toNat :=
  toNat_append_eq hi lo

/-- Big-endian bytes give the word back (R70). -/
theorem wordOfBytes_bytesOfWord (w : Word) : wordOfBytes (w.extractLsb' 8 8) (w.extractLsb' 0 8) = w := by
  apply BitVec.eq_of_toNat_eq
  have := w.isLt
  rw [wordOfBytes_toNat]
  simp [Nat.shiftRight_eq_div_pow]; omega

/-- Decoding the bytes of a word decodes the word. -/
theorem decode_bytesOfWord (w : Word) (rest : List Byte) :
    decode (bytesOfWord w ++ rest) =
      match decodeWord w with | .ok i => .ok (i, rest) | .error e => .error e := by
  cases h : decodeWord w <;> simp [decode, bytesOfWord, wordOfBytes_bytesOfWord, h]

end Sys2Proof
end

