-- ==== Sys2Proof/Laws/PerInstr.lean ====
section
/-! SUPPORT. The family OpcodeMap: the canonical word of an instruction lies in its row of R76, so that the encoder and
the table's match and mask agree. One lemma per constructor. -/

namespace Sys2Proof.Laws.OpcodeMap

/-- The canonical word has the row's fixed bits under the row's mask. -/
def Statement (i : Instr) : Prop := encode i &&& i.mask = i.matchBits

theorem cls : Statement (.cls) := rfl

theorem ret : Statement (.ret) := rfl

theorem sys (nnn : Addr12) : Statement (.sys nnn) := wordNNN_and_F000 _ _

theorem jp (nnn : Addr12) : Statement (.jp nnn) := wordNNN_and_F000 _ _

theorem call (nnn : Addr12) : Statement (.call nnn) := wordNNN_and_F000 _ _

theorem seImm (x : Reg) (nn : Byte) : Statement (.seImm x nn) := wordXNN_and_F000 _ _ _

theorem sneImm (x : Reg) (nn : Byte) : Statement (.sneImm x nn) := wordXNN_and_F000 _ _ _

theorem seReg (x y : Reg) : Statement (.seReg x y) := wordXYN_and_F000 _ _ _ _

theorem ldImm (x : Reg) (nn : Byte) : Statement (.ldImm x nn) := wordXNN_and_F000 _ _ _

theorem addImm (x : Reg) (nn : Byte) : Statement (.addImm x nn) := wordXNN_and_F000 _ _ _

theorem ldReg (x y : Reg) : Statement (.ldReg x y) := wordXYN_and_F00F _ _ _ _

theorem orReg (x y : Reg) : Statement (.orReg x y) := wordXYN_and_F00F _ _ _ _

theorem andReg (x y : Reg) : Statement (.andReg x y) := wordXYN_and_F00F _ _ _ _

theorem xorReg (x y : Reg) : Statement (.xorReg x y) := wordXYN_and_F00F _ _ _ _

theorem addReg (x y : Reg) : Statement (.addReg x y) := wordXYN_and_F00F _ _ _ _

theorem sub (x y : Reg) : Statement (.sub x y) := wordXYN_and_F00F _ _ _ _

theorem shr (x y : Reg) : Statement (.shr x y) := wordXYN_and_F00F _ _ _ _

theorem subn (x y : Reg) : Statement (.subn x y) := wordXYN_and_F00F _ _ _ _

theorem shl (x y : Reg) : Statement (.shl x y) := wordXYN_and_F00F _ _ _ _

theorem sneReg (x y : Reg) : Statement (.sneReg x y) := wordXYN_and_F000 _ _ _ _

theorem ldI (nnn : Addr12) : Statement (.ldI nnn) := wordNNN_and_F000 _ _

theorem jpV0 (nnn : Addr12) : Statement (.jpV0 nnn) := wordNNN_and_F000 _ _

theorem rnd (x : Reg) (nn : Byte) : Statement (.rnd x nn) := wordXNN_and_F000 _ _ _

theorem drw (x y : Reg) (n : Fin 16) : Statement (.drw x y n) := wordXYN_and_F000 _ _ _ _

theorem skp (x : Reg) : Statement (.skp x) := wordXNN_and_F0FF _ _ _

theorem sknp (x : Reg) : Statement (.sknp x) := wordXNN_and_F0FF _ _ _

theorem ldVxDT (x : Reg) : Statement (.ldVxDT x) := wordXNN_and_F0FF _ _ _

theorem ldVxK (x : Reg) : Statement (.ldVxK x) := wordXNN_and_F0FF _ _ _

theorem ldDTVx (x : Reg) : Statement (.ldDTVx x) := wordXNN_and_F0FF _ _ _

theorem ldSTVx (x : Reg) : Statement (.ldSTVx x) := wordXNN_and_F0FF _ _ _

theorem addI (x : Reg) : Statement (.addI x) := wordXNN_and_F0FF _ _ _

theorem ldF (x : Reg) : Statement (.ldF x) := wordXNN_and_F0FF _ _ _

theorem ldB (x : Reg) : Statement (.ldB x) := wordXNN_and_F0FF _ _ _

theorem ldMemVx (x : Reg) : Statement (.ldMemVx x) := wordXNN_and_F0FF _ _ _

theorem ldVxMem (x : Reg) : Statement (.ldVxMem x) := wordXNN_and_F0FF _ _ _

end Sys2Proof.Laws.OpcodeMap
end

