-- ==== Sys2Proof/Laws/Scheduler.lean ====
section
/-! SUPPORT. What the interpreter step, each event and a whole step can do, and the history's two operations. -/

namespace Sys2Proof.Machine

/-! ### The interpreter step -/

/-- Everything the interpreter step can do: retire the effect of the instruction at `pc`, or take a fault (R231). -/
theorem State.interpStep_cases {s t : State} (h : s.interpStep = .next t) :
    (∃ i m, s.current.nextInstr = some i ∧ s.effectOf i = .ok m ∧ t = s.retire m) ∨ ∃ f, t = s.takeFault f := by
  unfold interpStep at h
  split at h
  · cases h; exact .inr ⟨_, rfl⟩
  · rename_i w hw
    split at h
    · cases h; exact .inr ⟨_, rfl⟩
    · rename_i i hi
      rcases exec_cases h with ⟨m, hm, rfl⟩ | ⟨f, -, rfl⟩
      · exact .inl ⟨i, m, by simp only [MachineState.nextInstr, hw, hi], hm, rfl⟩
      · exact .inr ⟨f, rfl⟩

/-- The interpreter step always answers a next state. -/
theorem State.interpStep_next (s : State) : ∃ t, s.interpStep = .next t := by
  unfold interpStep
  split
  · exact ⟨_, rfl⟩
  · split
    · exact ⟨_, rfl⟩
    · rename_i i _
      rw [exec_eq_finish]
      cases s.effectOf i <;> exact ⟨_, rfl⟩

/-- The fetch fault. -/
theorem State.interpStep_fetch_error {s : State} {f : Fault} (h : s.current.fetchWord = .error f) :
    s.interpStep = .next (s.takeFault f) := by
  simp only [interpStep, h]

/-- A word that is not an instruction. -/
theorem State.interpStep_decode_error {s : State} {w : Word} {e : Reject} (h : s.current.fetchWord = .ok w)
    (hd : decodeWord w = .error e) : s.interpStep = .next (s.takeFault (rejectFault w e)) := by
  simp only [interpStep, h, hd]

/-- A word that is one. -/
theorem State.interpStep_decode_ok {s : State} {w : Word} {i : Instr} (h : s.current.fetchWord = .ok w)
    (hd : decodeWord w = .ok i) : s.interpStep = exec i s := by
  simp only [interpStep, h, hd]

/-! ### The history (R246) -/

/-- A snapshot at the end is the one restored. -/
theorem State.popHistory_of_append {s : State} {h : List MachineState} {m : MachineState} (hs : s.history = h ++ [m]) :
    s.popHistory = { s with current := m, history := h } := by
  simp [popHistory, hs]

/-- Nothing to restore. -/
theorem State.popHistory_of_nil {s : State} (hs : s.history = []) : s.popHistory = s := by
  simp [popHistory, hs]

/-- What a restore leaves alone. -/
theorem State.popHistory_cases (s : State) :
    (s.history = [] ∧ s.popHistory = s) ∨
      ∃ h m, s.history = h ++ [m] ∧ s.popHistory = { s with current := m, history := h } := by
  rcases List.eq_nil_or_concat s.history with h | ⟨h, m, hm⟩
  · exact .inl ⟨h, popHistory_of_nil h⟩
  · rw [List.concat_eq_append] at hm
    exact .inr ⟨h, m, hm, popHistory_of_append hm⟩

/-- With room, a push appends. -/
theorem pushHistory_of_room {cap : HistoryCapacity} {h : List MachineState} (m : MachineState)
    (hr : HasRoom cap (h.length + 1)) : pushHistory cap h m = h ++ [m] := by
  cases cap with
  | unbounded => rfl
  | bounded c =>
    have : h.length + 1 ≤ c := hr
    exact if_neg (by omega)

/-- Every push puts the snapshot last, after the end of the history. -/
theorem pushHistory_mem {cap : HistoryCapacity} {h : List MachineState} {m m' : MachineState}
    (hm : m' ∈ pushHistory cap h m) : m' ∈ h ∨ m' = m := by
  unfold pushHistory at hm
  split at hm
  · simpa using hm
  · split at hm
    · rw [List.mem_append, List.mem_singleton] at hm
      exact hm.imp_left List.mem_of_mem_drop
    · simpa using hm

/-! ### Events -/

/-- In status Running an event reaches its handler. -/
theorem State.eventStep_running {s : State} (h : s.status = .running) (e : Event) : s.eventStep e = s.handle e := by
  simp only [eventStep, h]

/-- In any other status it does nothing (R245). -/
theorem State.eventStep_stopped {s : State} (h : s.status ≠ .running) (e : Event) : s.eventStep e = .next s := by
  unfold eventStep
  split
  · contradiction
  · rfl
  · rfl

/-- A CPU tick that rewinds (R234). -/
theorem State.onCpuTick_rewind {s : State} (r : Byte) (h : 0 < s.rewind) (hh : s.history ≠ []) :
    s.onCpuTick r = .next s.popHistory := if_pos ⟨h, hh⟩

/-- A CPU tick that does not rewind (R234). -/
theorem State.onCpuTick_noRewind {s : State} (r : Byte) (h : s.rewind = 0 ∨ s.history = []) :
    s.onCpuTick r = if s.paused then .next s else s.forward r :=
  if_neg (by rintro ⟨h1, h2⟩; rcases h with h | h; · omega
             · exact h2 h)

/-- A step with an event is that event's, and with none only the step is counted (R233). -/
theorem step_of_some {s : State} {e : Event} (h : s.nextEvent = some e) : step s = s.dequeued.eventStep e := by
  simp only [step, State.deliver, h]

theorem step_of_none {s : State} (h : s.nextEvent = none) : step s = .next s.dequeued := by
  simp only [step, State.deliver, h]

/-- A run over two sequences, one after the other. -/
theorem State.runEvents_append {s t : State} {a : List Event} (h : s.runEvents a = .next t) (b : List Event) :
    s.runEvents (a ++ b) = t.runEvents b := by
  induction a generalizing s with
  | nil => cases h; rfl
  | cons e es ih =>
    rw [runEvents] at h
    rw [List.cons_append, runEvents]
    split at h
    · exact ih h
    · cases h
    · cases h

/-- `pushed` runs the interpreter step that the next event makes. -/
theorem step_of_runsInstruction {s : State} (h : s.runsInstruction = true) : step s = s.pushed.interpStep := by
  unfold State.runsInstruction at h
  unfold State.pushed
  split at h
  · rename_i r hs he
    rw [step_of_some he, he, State.eventStep_running (s := s.dequeued) hs, State.handle]
    simp only [Bool.and_eq_true, Bool.not_eq_true', Bool.and_eq_false_iff, decide_eq_false_iff_not] at h
    rw [State.onCpuTick_noRewind]
    · rw [if_neg (by rw [State.dequeued_paused, h.2]; decide)]; rfl
    · rcases h.1 with h | h
      · exact .inl (Nat.eq_zero_of_not_pos h)
      · exact .inr (by simpa using h)
  · rename_i r hs he
    rw [step_of_some he, he, State.eventStep_running (s := s.dequeued) hs, State.handle]; rfl
  · cases h

/-- Everything one step can do. -/
theorem step_cases {s t : State} (h : step s = .next t) :
    (s.status ≠ .running ∧ t = s.dequeued) ∨
    (s.status = .running ∧ s.runsInstruction = true ∧ s.pushed.interpStep = .next t) ∨
    (s.status = .running ∧ s.restores = true ∧
      ∃ hist m, s.history = hist ++ [m] ∧ t = { s.dequeued with current := m, history := hist }) ∨
    (s.status = .running ∧ t = s.dequeued) ∨
    (s.status = .running ∧ s.nextEvent = some .timerTick ∧ t = { s.dequeued with current := s.current.timerTick }) ∨
    (s.status = .running ∧ s.nextEvent = some .keyDecayTick ∧ t = { s.dequeued with current := s.current.keyDecay }) ∨
    (s.status = .running ∧ ∃ k, s.nextEvent = some (.keyPress k) ∧ t = { s.dequeued with current := s.current.pressKey k }) ∨
    (s.status = .running ∧ ∃ b, s.nextEvent = some (.setPaused b) ∧ t = { s.dequeued with paused := b }) ∨
    (s.status = .running ∧ s.nextEvent = some .reset ∧ t = s.dequeued.onReset) ∨
    (s.status = .running ∧ ∃ n, s.nextEvent = some (.beginRewind n) ∧ t = { s.dequeued with rewind := n }) ∨
    (s.status = .running ∧ s.nextEvent = some .rewindDecay ∧ t = { s.dequeued with rewind := s.rewind - 1 }) ∨
    (s.status = .running ∧ s.nextEvent = some .quit ∧ t = { s.dequeued with status := .quit }) := by
  by_cases hs : s.status = .running
  swap
  · left
    cases he : s.nextEvent with
    | none => rw [step_of_none he] at h; cases h; exact ⟨hs, rfl⟩
    | some e =>
      rw [step_of_some he, State.eventStep_stopped (by simpa using hs)] at h
      cases h; exact ⟨hs, rfl⟩
  right
  by_cases hr : s.runsInstruction = true
  · left
    rw [step_of_runsInstruction hr] at h
    exact ⟨hs, hr, h⟩
  right
  have hpop : ∀ u : State, s.dequeued.popHistory = u →
      (u = s.dequeued ∧ s.history = []) ∨
        (s.history ≠ [] ∧ ∃ hist m, s.history = hist ++ [m] ∧ u = { s.dequeued with current := m, history := hist }) := by
    rintro u rfl
    rcases State.popHistory_cases s.dequeued with ⟨h1, h2⟩ | ⟨hist, m, h1, h2⟩
    · exact .inl ⟨h2, h1⟩
    · exact .inr ⟨by rw [show s.history = hist ++ [m] from h1]; simp, hist, m, h1, h2⟩
  rcases he : s.nextEvent with _ | e
  · rw [step_of_none he] at h; cases h; exact .inr (.inl ⟨hs, rfl⟩)
  rw [step_of_some he, State.eventStep_running (s := s.dequeued) hs] at h
  cases e <;> rw [State.handle] at h <;> simp only [hs, true_and, reduceCtorEq, false_and, Option.some.injEq,
    exists_false, or_false, false_or, Event.keyPress.injEq, Event.setPaused.injEq, Event.beginRewind.injEq,
    exists_eq_left', and_false]
  case cpuTick r =>
    unfold State.onCpuTick at h
    split at h
    · rename_i hc
      cases h
      rcases hpop _ rfl with ⟨-, hn⟩ | ⟨hn, hm⟩
      · exact absurd hn hc.2
      · exact .inl ⟨by simpa [State.restores, hs, he] using ⟨hc.1, hn⟩, hm⟩
    · rename_i hc
      split at h
      · cases h; exact .inr rfl
      · rename_i hp
        refine absurd ?_ hr
        simp only [State.dequeued_rewind, State.dequeued_history, not_and_or, ne_eq, not_not] at hc
        simp only [State.dequeued_paused, Bool.not_eq_true] at hp
        simp only [State.runsInstruction, hs, he, hp]
        rcases hc with hc | hc
        · simp [Nat.eq_zero_of_not_pos hc]
        · simp [hc]
  case stepForward r => exact absurd (by simp [State.runsInstruction, hs, he]) hr
  case stepBack =>
    cases h
    rcases hpop _ rfl with ⟨h, -⟩ | ⟨hn, hm⟩
    · exact .inr h
    · exact .inl ⟨by simpa [State.restores, hs, he] using hn, hm⟩
  all_goals (cases h; simp)

end Sys2Proof.Machine
end

