-- ==== Sys2Proof/Tests/Slice0.lean ====
section
/-! SUPPORT. Tests whose expected results are those of spec/95_test_vectors.md (named in each docstring) or follow by
hand from the rule cited, and for every statement with hypotheses a witness that meets them. -/

namespace Sys2Proof.Tests

open Sys2Proof.Machine

/-! ### Helpers -/

/-- The MachineState at power-on. -/
def m0 : MachineState := initialState Params.default

/-- A running state around a MachineState, with one CPU tick waiting. -/
def around (m : MachineState) : State := { State.reset with current := m, pending := [.cpuTick 0#8] }

/-- The byte `v` stored at `a`. -/
def put (m : MachineState) (a : Nat) (v : Byte) : MachineState := m.setMemory (Memory.write m.memory a v)

/-- Depth `sp` of the return stack. -/
def depth (m : MachineState) (sp : Fin 17) : MachineState := m.setStack m.stack sp

/-- One counter of the key table set. -/
def key (m : MachineState) (k : Fin 16) (v : Byte) : MachineState := m.setKeys (m.keys.set k v)

/-- A pixel lit. -/
def lit (m : MachineState) (row col : Nat) : MachineState :=
  if h : row < 32 ∧ col < 64 then m.setFb (m.fb.set row (m.fb[row].set col true)) else m

/-- The word `w` run as one step from `m`: it retires, and `P` holds of the MachineState after it. -/
def runs (m : MachineState) (w : Nat) (P : MachineState → Bool) : Bool :=
  match step ((around m).withFetchWord 16 w) with
  | .next t => decide (t.status = .running) && P t.current
  | .fault _ => false
  | .refused _ => false

/-- The word `w` run as one step from `m` faults with `f`: the record is as R226 says and the MachineState as it was. -/
def faults (m : MachineState) (w : Nat) (f : Fault) : Bool :=
  match step ((around m).withFetchWord 16 w) with
  | .next t =>
    decide (t.status = .faulted { fault := f, pc := m.pc, opcode := some (BitVec.ofNat 16 w) }) &&
      decide (t.current = ((around m).withFetchWord 16 w).current)
  | .fault _ => false
  | .refused _ => false

/-- A sequence of events delivered to `s`: the status stays `Running`, and `P` holds of the state after it. -/
def delivers (s : State) (es : List Event) (P : State → Bool) : Bool :=
  match s.runEvents es with
  | .next t => decide (t.status = .running) && P t
  | .fault _ => false
  | .refused _ => false

/-- A sequence of events leaves `s` as it is. -/
def unmoved (s : State) (es : List Event) : Bool :=
  match s.runEvents es with
  | .next t => decide (t = s)
  | .fault _ => false
  | .refused _ => false

/-- `P` holds of the next state that `exec` answers. -/
def execs (i : Instr) (s : State) (P : State → Bool) : Bool :=
  match exec i s with
  | .next t => P t
  | .fault _ => false
  | .refused _ => false

/-- `P` holds of the next state that `step` answers. -/
def steps (s : State) (P : State → Bool) : Bool :=
  match step s with
  | .next t => P t
  | .fault _ => false
  | .refused _ => false

/-- These pixels (row, column) are lit. -/
def allLit (m : MachineState) (ps : List (Nat × Nat)) : Bool := ps.all fun p => pixelAt m.fb p.1 p.2

/-- These pixels (row, column) are not lit. -/
def noneLit (m : MachineState) (ps : List (Nat × Nat)) : Bool := ps.all fun p => !pixelAt m.fb p.1 p.2

/-! ### Well-formedness -/

/-- Ill-formed: SYS 0x0E0 and SYS 0x0EE would be CLS and RET (R81). -/
theorem test_wf_refuses_sys : (Instr.sys 0x0E0#12).wf = false ∧ (Instr.sys 0x0EE#12).wf = false := by decide

/-- Well-formed: every other SYS (R74, R81). -/
theorem test_wf_accepts_sys : (Instr.sys 0x0E1#12).wf = true ∧ (Instr.sys 0x1E0#12).wf = true := by decide

/-! ### Decoding: every constructor from a word written out bit by bit from R76's row -/

theorem test_decode_display :
    decodeWord 0b0000000011100000#16 = .ok .cls ∧
    decodeWord 0b1101_0001_0010_0101#16 = .ok (.drw 1 2 5) := by decide

theorem test_decode_control :
    decodeWord 0b0000000011101110#16 = .ok .ret ∧
    decodeWord 0b0000_101010111100#16 = .ok (.sys 0xABC#12) ∧
    decodeWord 0b0001_101010111100#16 = .ok (.jp 0xABC#12) ∧
    decodeWord 0b0010_101010111100#16 = .ok (.call 0xABC#12) ∧
    decodeWord 0b0011_0101_10101011#16 = .ok (.seImm 5 0xAB#8) ∧
    decodeWord 0b0100_0101_10101011#16 = .ok (.sneImm 5 0xAB#8) ∧
    decodeWord 0b0101_0101_1100_0000#16 = .ok (.seReg 5 12) ∧
    decodeWord 0b1001_0101_1100_0000#16 = .ok (.sneReg 5 12) ∧
    decodeWord 0b1011_101010111100#16 = .ok (.jpV0 0xABC#12) := by decide

theorem test_decode_arithmetic :
    decodeWord 0b0110_0101_10101011#16 = .ok (.ldImm 5 0xAB#8) ∧
    decodeWord 0b0111_0101_10101011#16 = .ok (.addImm 5 0xAB#8) ∧
    decodeWord 0b1000_0101_1100_0000#16 = .ok (.ldReg 5 12) ∧
    decodeWord 0b1000_0101_1100_0001#16 = .ok (.orReg 5 12) ∧
    decodeWord 0b1000_0101_1100_0010#16 = .ok (.andReg 5 12) ∧
    decodeWord 0b1000_0101_1100_0011#16 = .ok (.xorReg 5 12) ∧
    decodeWord 0b1000_0101_1100_0100#16 = .ok (.addReg 5 12) ∧
    decodeWord 0b1000_0101_1100_0101#16 = .ok (.sub 5 12) ∧
    decodeWord 0b1000_0101_1100_0110#16 = .ok (.shr 5 12) ∧
    decodeWord 0b1000_0101_1100_0111#16 = .ok (.subn 5 12) ∧
    decodeWord 0b1000_0101_1100_1110#16 = .ok (.shl 5 12) ∧
    decodeWord 0b1100_0101_10101011#16 = .ok (.rnd 5 0xAB#8) := by decide

theorem test_decode_index_memory :
    decodeWord 0b1010_101010111100#16 = .ok (.ldI 0xABC#12) ∧
    decodeWord 0b1111_0101_00011110#16 = .ok (.addI 5) ∧
    decodeWord 0b1111_0101_00101001#16 = .ok (.ldF 5) ∧
    decodeWord 0b1111_0101_00110011#16 = .ok (.ldB 5) ∧
    decodeWord 0b1111_0101_01010101#16 = .ok (.ldMemVx 5) ∧
    decodeWord 0b1111_0101_01100101#16 = .ok (.ldVxMem 5) := by decide

theorem test_decode_keys_timers :
    decodeWord 0b1110_0101_10011110#16 = .ok (.skp 5) ∧
    decodeWord 0b1110_0101_10100001#16 = .ok (.sknp 5) ∧
    decodeWord 0b1111_0101_00000111#16 = .ok (.ldVxDT 5) ∧
    decodeWord 0b1111_0101_00001010#16 = .ok (.ldVxK 5) ∧
    decodeWord 0b1111_0101_00010101#16 = .ok (.ldDTVx 5) ∧
    decodeWord 0b1111_0101_00011000#16 = .ok (.ldSTVx 5) := by decide

/-- 95 section 2: the illegal words. -/
theorem test_decode_illegal :
    decodeWord 0x8128#16 = .error (.illegalGroup8 0x8128#16) ∧ decodeWord 0x812D#16 = .error (.illegalGroup8 0x812D#16) ∧
    decodeWord 0x812F#16 = .error (.illegalGroup8 0x812F#16) ∧ decodeWord 0xE19F#16 = .error (.illegalGroupE 0xE19F#16) ∧
    decodeWord 0xE100#16 = .error (.illegalGroupE 0xE100#16) ∧ decodeWord 0xF108#16 = .error (.illegalGroupF 0xF108#16) ∧
    decodeWord 0xF100#16 = .error (.illegalGroupF 0xF100#16) ∧ decodeWord 0xFFFF#16 = .error (.illegalGroupF 0xFFFF#16) := by
  decide

/-- R70: the byte at the lower address is bits 15:8. -/
theorem test_decode_big_endian : decodeTableWord 16 0x6AEE = some (.ldImm 10 0xEE#8) ∧
    decode [0x6A#8, 0xEE#8] = .ok (.ldImm 10 0xEE#8, []) ∧ decode [0x6A#8] = .error .tooShort := by decide

/-- R81: the assembler text. -/
theorem test_asm : Instr.asmText (.drw 10 11 5) = "DRW VA, VB, 5" ∧ Instr.asmText (.ldMemVx 2) = "LD [I], V2" ∧
    Instr.asmText (.seImm 1 0x06#8) = "SE V1, 0x06" := by decide

/-! ### Display -/

/-- V-DSP18. -/
theorem test_cls : runs (lit (lit (m0.setV 15 7#8) 0 0) 31 63) 0x00E0 (fun m =>
    decide (m.fb = blankFramebuffer ∧ m.getV 15 = 7#8 ∧ m.pc = 0x202#16)) = true := by decide

/-- V-DSP4: columns past 63 are clipped. -/
theorem test_drw_clips : runs ((m0.setI 0x050#16).setV 0 62#8) 0xD011 (fun m =>
    allLit m [(0, 62), (0, 63)] && noneLit m [(0, 0), (0, 1), (1, 0), (1, 1)] && decide (m.getV 15 = 0#8)) = true := by decide

/-- V-DSP7: rows 30 and 31. -/
theorem test_drw_rows : runs ((m0.setI 0x050#16).setV 1 30#8) 0xD012 (fun m =>
    allLit m [(30, 0), (30, 1), (30, 2), (30, 3), (31, 0), (31, 3)] && noneLit m [(31, 1), (31, 2), (30, 4), (0, 0)]) = true := by decide

/-- V-DSP9 and V-DSP11: 255 modulo 63 is 3; with X = 15 the coordinate is VF before the flag. -/
theorem test_drw_origin : runs ((put m0 0x300 0x80#8).setI 0x300#16 |>.setV 0 255#8) 0xD011 (fun m =>
      allLit m [(0, 3)] && noneLit m [(0, 0), (0, 2), (0, 4)]) = true ∧
    runs ((put m0 0x300 0x80#8).setI 0x300#16 |>.setV 15 5#8) 0xDF01 (fun m =>
      allLit m [(0, 5)] && noneLit m [(0, 0), (0, 4), (0, 6)] && decide (m.getV 15 = 0#8)) = true := by decide

/-- V-DSP12's second draw: VF is set when a lit pixel is erased. -/
theorem test_drw_collides :
    runs (lit (lit ((put m0 0x301 0x60#8).setI 0x301#16) 0 0) 0 1) 0xD011 (fun m =>
      allLit m [(0, 0), (0, 2)] && noneLit m [(0, 1), (0, 3)] && decide (m.getV 15 = 1#8)) = true := by decide

/-- V-DSP14, V-DSP16 and V-DSP17: the range check, and none for N = 0. -/
theorem test_drw_range : faults (m0.setI 0xFFE#16) 0xD013 (.memoryOutOfRange 0x1000) = true ∧
    faults (m0.setI 0x1234#16) 0xD011 (.memoryOutOfRange 0x1234) = true ∧
    runs (m0.setI 0x1234#16) 0xD010 (fun m => decide (m.getV 15 = 0#8)) = true := by decide

/-! ### Control transfer -/

/-- V-CTL1 and V-CTL17's last step. -/
theorem test_call : runs m0 0x2400 (fun m => decide (m.pc = 0x400#16 ∧ m.sp = 1 ∧ m.stack[0] = 0x202#16)) = true ∧
    faults (depth m0 16) 0x2200 .stackOverflow = true := by decide

/-- V-CTL2's second step and V-CTL3. -/
theorem test_ret : runs (m0.setStack (m0.stack.set 0 0x202#16) 1) 0x00EE (fun m =>
      decide (m.pc = 0x202#16 ∧ m.sp = 0 ∧ m.stack[0] = 0x202#16)) = true ∧
    faults m0 0x00EE .stackUnderflow = true := by decide

/-- V-CTL4 and V-CTL5. -/
theorem test_sys : runs m0 0x0ABC (fun m => decide (m.pc = 0xABC#16 ∧ m.sp = 1 ∧ m.stack[0] = 0x202#16)) = true ∧
    runs m0 0x00E1 (fun m => decide (m.pc = 0x0E1#16)) = true := by decide

/-- V-CTL6. -/
theorem test_jp : runs m0 0x1ABC (fun m => decide (m.pc = 0xABC#16 ∧ m.sp = 0)) = true := by decide

/-- V-CTL7 to V-CTL10. -/
theorem test_skip_immediate : runs (m0.setV 3 0x42#8) 0x3342 (fun m => decide (m.pc = 0x204#16)) = true ∧
    runs (m0.setV 3 0x41#8) 0x3342 (fun m => decide (m.pc = 0x202#16)) = true ∧
    runs (m0.setV 3 0x42#8) 0x4342 (fun m => decide (m.pc = 0x202#16)) = true ∧
    runs (m0.setV 3 0x41#8) 0x4342 (fun m => decide (m.pc = 0x204#16)) = true := by decide

/-- V-CTL12 to V-CTL14. -/
theorem test_skip_registers :
    runs ((m0.setV 1 7#8).setV 2 7#8) 0x5127 (fun m => decide (m.pc = 0x204#16)) = true ∧
    runs ((m0.setV 1 7#8).setV 2 8#8) 0x9120 (fun m => decide (m.pc = 0x204#16)) = true ∧
    runs ((m0.setV 1 7#8).setV 2 7#8) 0x9120 (fun m => decide (m.pc = 0x202#16)) = true := by decide

/-- V-CTL16: not masked to 12 bits. -/
theorem test_jpV0 : runs (m0.setV 0 0xFF#8) 0xBFFF (fun m => decide (m.pc = 0x10FE#16)) = true := by decide

/-- V-CTL19 and V-CTL20: fetch at the end of memory. -/
theorem test_fetch_end :
    steps (around (m0.setPc 0xFFF#16)) (fun t => decide (t.current = m0.setPc 0xFFF#16 ∧
      t.status = .faulted { fault := .memoryOutOfRange 0x1000, pc := 0xFFF#16, opcode := none })) = true ∧
    runs (m0.setPc 0xFFE#16) 0x6001 (fun m => decide (m.pc = 0x1000#16 ∧ m.getV 0 = 1#8)) = true := by decide

/-- V-CTL21: an odd pc. -/
theorem test_fetch_odd : runs (m0.setPc 0x201#16) 0x6123 (fun m => decide (m.pc = 0x203#16 ∧ m.getV 1 = 0x23#8)) =
    true := by decide

/-! ### Arithmetic and logic -/

/-- V-ALU1 and V-ALU3. -/
theorem test_loads : runs m0 0x6AEE (fun m => decide (m.getV 10 = 0xEE#8)) = true ∧
    runs (m0.setV 2 0x99#8) 0x8120 (fun m => decide (m.getV 1 = 0x99#8)) = true := by decide

/-- V-ALU2: wraps with no flag. -/
theorem test_addImm : runs ((m0.setV 3 0xFF#8).setV 15 0x55#8) 0x7302 (fun m =>
    decide (m.getV 3 = 0x01#8 ∧ m.getV 15 = 0x55#8)) = true := by decide

/-- V-ALU21. -/
theorem test_logic :
    runs (((m0.setV 1 0x0C#8).setV 2 0x0A#8).setV 15 0x77#8) 0x8121 (fun m =>
      decide (m.getV 1 = 0x0E#8 ∧ m.getV 15 = 0x77#8)) = true ∧
    runs (((m0.setV 1 0x0C#8).setV 2 0x0A#8).setV 15 0x77#8) 0x8122 (fun m =>
      decide (m.getV 1 = 0x08#8 ∧ m.getV 15 = 0x77#8)) = true ∧
    runs (((m0.setV 1 0x0C#8).setV 2 0x0A#8).setV 15 0x77#8) 0x8123 (fun m =>
      decide (m.getV 1 = 0x06#8 ∧ m.getV 15 = 0x77#8)) = true := by decide

/-- V-ALU5 and V-ALU6: VF = 1 exactly when the sum fits. -/
theorem test_addReg_flag :
    runs ((m0.setV 1 0xFF#8).setV 2 0x01#8) 0x8124 (fun m => decide (m.getV 1 = 0#8 ∧ m.getV 15 = 0#8)) = true ∧
    runs ((m0.setV 1 0xF0#8).setV 2 0x0F#8) 0x8124 (fun m => decide (m.getV 1 = 0xFF#8 ∧ m.getV 15 = 1#8)) = true := by
  decide

/-- V-ALU7 and V-ALU8: X = 15 and Y = 15. -/
theorem test_addReg_VF :
    runs ((m0.setV 15 0xFF#8).setV 2 0x01#8) 0x8F24 (fun m => decide (m.getV 15 = 0#8)) = true ∧
    runs ((m0.setV 1 0x05#8).setV 15 0x03#8) 0x81F4 (fun m => decide (m.getV 1 = 0x08#8 ∧ m.getV 15 = 1#8)) = true := by
  decide

/-- V-ALU10 and V-ALU11. -/
theorem test_sub :
    runs ((m0.setV 1 0x10#8).setV 2 0x30#8) 0x8125 (fun m => decide (m.getV 1 = 0xE0#8 ∧ m.getV 15 = 0#8)) = true ∧
    runs ((m0.setV 1 0x42#8).setV 2 0x42#8) 0x8125 (fun m => decide (m.getV 1 = 0#8 ∧ m.getV 15 = 1#8)) = true := by
  decide

/-- V-ALU12 and V-ALU13. -/
theorem test_subn :
    runs ((m0.setV 1 0x10#8).setV 2 0x30#8) 0x8127 (fun m => decide (m.getV 1 = 0x20#8 ∧ m.getV 15 = 1#8)) = true ∧
    runs ((m0.setV 1 0x30#8).setV 2 0x10#8) 0x8127 (fun m => decide (m.getV 1 = 0xE0#8 ∧ m.getV 15 = 0#8)) = true := by
  decide

/-- V-ALU14 and V-ALU16. -/
theorem test_shr :
    runs ((m0.setV 1 0x05#8).setV 2 0x80#8) 0x8126 (fun m => decide (m.getV 1 = 0x02#8 ∧ m.getV 15 = 1#8)) = true ∧
    runs (m0.setV 15 0x03#8) 0x8F06 (fun m => decide (m.getV 15 = 0#8)) = true := by decide

/-- V-ALU17 and V-ALU19. -/
theorem test_shl :
    runs (m0.setV 1 0x81#8) 0x812E (fun m => decide (m.getV 1 = 0x02#8 ∧ m.getV 15 = 1#8)) = true ∧
    runs (m0.setV 15 0x81#8) 0x8F0E (fun m => decide (m.getV 15 = 0x02#8)) = true := by decide

/-- V-ALU23, the draw carried by the event. -/
theorem test_rnd : delivers (around ((put (put m0 0x200 0xC3#8) 0x201 0x0F#8))) [.cpuTick 0xAB#8] (fun t =>
    decide (t.current.getV 3 = 0x0B#8 ∧ t.current.pc = 0x202#16)) = true := by decide

/-- V-ALU24, whatever the draw. -/
theorem test_rnd_masked (r : Byte) : ∀ t, exec (.rnd 3 0x00#8) { around m0 with draw := r } = .next t →
    t.current.getV 3 = 0#8 := by
  rintro t ⟨⟩
  exact BitVec.and_zero

/-! ### Index register and memory -/

/-- V-MEM1. -/
theorem test_ldI : runs m0 0xA123 (fun m => decide (m.I = 0x123#16)) = true := by decide

/-- V-MEM2 and V-MEM3. -/
theorem test_addI : runs ((m0.setI 0x0FFF#16).setV 2 0x01#8) 0xF21E (fun m => decide (m.I = 0x1000#16)) = true ∧
    runs (((m0.setI 0xFFFF#16).setV 2 0x02#8).setV 15 9#8) 0xF21E (fun m =>
      decide (m.I = 0x0001#16 ∧ m.getV 15 = 9#8)) = true := by decide

/-- V-MEM6 and V-MEM8: not masked to a glyph. -/
theorem test_ldF : runs (m0.setV 4 0x0F#8) 0xF429 (fun m => decide (m.I = 0x09B#16)) = true ∧
    runs (m0.setV 4 0xFF#8) 0xF429 (fun m => decide (m.I = 0x54B#16)) = true := by decide

/-- L1-3 and V-MEM12. -/
theorem test_ldB : runs ((m0.setI 0x300#16).setV 5 157#8) 0xF533 (fun m =>
      decide (Memory.readList m.memory 0x300 4 = [1#8, 5#8, 7#8, 0#8] ∧ m.I = 0x300#16)) = true ∧
    faults ((m0.setI 0xFFE#16).setV 5 157#8) 0xF533 (.memoryOutOfRange 0x1000) = true := by decide

/-- V-MEM14 and V-MEM16. -/
theorem test_ldMemVx : runs ((((m0.setI 0x300#16).setV 0 1#8).setV 1 2#8).setV 2 3#8 |>.setV 3 4#8) 0xF255 (fun m =>
      decide (Memory.readList m.memory 0x300 4 = [1#8, 2#8, 3#8, 0#8] ∧ m.I = 0x300#16)) = true ∧
    faults ((m0.setI 0xFFD#16).setV 0 1#8) 0xF355 (.memoryOutOfRange 0x1000) = true := by decide

/-- V-MEM18 and V-MEM20. -/
theorem test_ldVxMem :
    runs ((put (put (put (put m0 0x300 0x11#8) 0x301 0x22#8) 0x302 0x33#8) 0x303 0x44#8).setI 0x300#16 |>.setV 3 0x99#8)
      0xF265 (fun m => decide (m.getV 0 = 0x11#8 ∧ m.getV 1 = 0x22#8 ∧ m.getV 2 = 0x33#8 ∧ m.getV 3 = 0x99#8 ∧
        m.I = 0x300#16)) = true ∧
    faults (m0.setI 0xFFF#16) 0xF165 (.memoryOutOfRange 0x1000) = true := by decide

/-- R260: writing a byte's reset value removes its cell, in the font and outside it. -/
theorem test_memory_canonical : Memory.write (Memory.write [] 0x300 5#8) 0x300 0#8 = [] ∧
    Memory.write [] 0x050 0xF0#8 = [] ∧ Memory.write [] 0x050 0#8 = [(0x050, 0#8)] := by decide

/-! ### Keys and timers -/

/-- V-KEY1 and V-KEY5. -/
theorem test_skp : runs (key (m0.setV 1 5#8) 5 2#8) 0xE19E (fun m => decide (m.pc = 0x204#16)) = true ∧
    faults (m0.setV 1 16#8) 0xE19E (.keyIndexOutOfRange 16#8) = true := by decide

/-- V-KEY3 and V-KEY4. -/
theorem test_sknp : runs (key (m0.setV 1 5#8) 5 1#8) 0xE1A1 (fun m => decide (m.pc = 0x202#16)) = true ∧
    runs (m0.setV 1 5#8) 0xE1A1 (fun m => decide (m.pc = 0x204#16)) = true := by decide

/-- V-KEY7. -/
theorem test_ldVxDT : runs (m0.setDT 0x3C#8) 0xF307 (fun m => decide (m.getV 3 = 0x3C#8 ∧ m.DT = 0x3C#8)) = true := by
  decide

/-- V-KEY8 and V-KEY9. -/
theorem test_ldVxK : runs (m0.setV 3 9#8) 0xF30A (fun m => decide (m.pc = 0x200#16 ∧ m.getV 3 = 9#8)) = true ∧
    runs (key (key m0 4 1#8) 9 2#8) 0xF30A (fun m => decide (m.pc = 0x202#16 ∧ m.getV 3 = 4#8)) = true := by decide

/-- V-KEY10 and V-KEY11. -/
theorem test_timers : runs (m0.setV 3 0x3C#8) 0xF315 (fun m => decide (m.DT = 0x3C#8 ∧ m.ST = 0#8)) = true ∧
    runs (m0.setV 3 0x3C#8) 0xF318 (fun m => decide (m.ST = 0x3C#8 ∧ m.DT = 0#8)) = true := by decide

/-- V-KEY14. -/
theorem test_timerTick : delivers (around ((m0.setDT 2#8).setST 5#8)) [.timerTick, .timerTick, .timerTick] (fun t =>
    decide (t.current.DT = 0#8 ∧ t.current.ST = 5#8)) = true := by decide

/-- L1-8 and V-KEY15. -/
theorem test_keys : delivers (around (key m0 3 2#8)) [.keyPress 7, .keyDecayTick] (fun t =>
      decide (t.current.keys = (Vector.replicate 16 0#8).set 7 1#8)) = true ∧
    delivers (around (key m0 3 2#8)) [.keyPress 7, .keyDecayTick, .keyDecayTick] (fun t =>
      decide (t.current.keys = Vector.replicate 16 0#8)) = true := by decide

/-! ### The scheduler -/

/-- V-SCH1 and V-SCH2: paused, without and with a rewind pending. -/
theorem test_paused : delivers { around m0 with paused := true } [.cpuTick 0#8] (fun t =>
      decide (t = { around m0 with paused := true })) = true ∧
    delivers { around m0 with paused := true, rewind := 1, history := [m0.setI 7#16] } [.cpuTick 0#8] (fun t =>
      decide (t.current = m0.setI 7#16 ∧ t.history = [] ∧ t.rewind = 1)) = true := by decide

/-- V-SCH3: with nothing to restore the forward branch runs. -/
theorem test_rewind_empty : delivers { around m0 with rewind := 1 } [.cpuTick 0#8] (fun t =>
    decide (t.history = [m0] ∧ t.current.sp = 1)) = true := by decide

/-- V-SCH6 and V-SCH7. -/
theorem test_decay_reset : delivers { around m0 with rewind := 2 } [.rewindDecay, .rewindDecay, .rewindDecay] (fun t =>
      decide (t.rewind = 0)) = true ∧
    delivers { around (m0.setI 7#16) with paused := true, rewind := 3, history := [m0] } [.reset] (fun t =>
      decide (t.current = m0 ∧ t.history = [] ∧ t.rewind = 0 ∧ t.paused = true)) = true := by decide

/-- V-SCH8: the push stays, the record is (1, IllegalInstruction, pc, 0x8128, 0x8128), and later events do nothing. -/
theorem test_fault_record : steps { around (put (put m0 0x200 0x81#8) 0x201 0x28#8) with pending := [.cpuTick 0#8] } (fun t => decide (
      t.status = .faulted { fault := .illegalInstruction 0x8128#16, pc := 0x200#16, opcode := some 0x8128#16 } ∧
      t.history = [t.current]) && unmoved t [.reset, .timerTick]) = true ∧
    (Fault.illegalInstruction 0x8128#16).code = 1 ∧ (Fault.illegalInstruction 0x8128#16).detail = some 0x8128 := by
  decide

/-- R233: with nothing waiting and nothing arriving, nothing happens but that the step is counted. -/
theorem test_no_event (h : Config.arrival 0 = none) : step State.reset = .next { State.reset with stepCount := 1 } := by
  show State.deliver _ = _
  simp only [State.deliver, State.nextEvent, State.reset, State.powerOn, h]; rfl

/-- V-SCH9: Quit, and the channel of one step at a time. -/
theorem test_quit : steps { around m0 with pending := [.quit, .reset] } (fun t =>
    decide (t.status = .quit ∧ t.pending = [.reset]) && unmoved t [.cpuTick 0#8, .reset]) = true := by decide

/-- P4's first step: the word of zeros is SYS 0x000. -/
theorem test_empty_memory : steps { State.reset with pending := [.cpuTick 0#8] } (fun t => decide (t.current.pc = 0#16 ∧ t.current.sp = 1 ∧
    t.current.stack[0] = 0x202#16 ∧ t.history = [m0])) = true := by decide

/-- R250: the bitmap, the registers, pc, I and the timers of the output. -/
theorem test_output : (around (m0.setI 7#16)).output.I = 7#16 ∧ (around m0).output.bitmap = blankFramebuffer ∧
    (around m0).output.pc = 0x200#16 := by decide

/-! ### Witnesses: concrete states and operands that meet all hypotheses of a statement, at the ends of their ranges -/

/-- DecodeOfEncode. -/
theorem witness_wf : (Instr.sys 0xFFF#12).wf = true ∧ (Instr.drw 15 0 15).wf = true := by decide

/-- EncodeOfDecode: the groups 5 and 9, and another. -/
theorem witness_EncodeOfDecode : decodeWord 0x512F#16 = .ok (.seReg 1 2) ∧ decodeWord 0x9121#16 = .ok (.sneReg 1 2) ∧
    decodeWord 0xFF65#16 = .ok (.ldVxMem 15) := by decide

/-- The words of OpcodeMapRowsDecode's rows exist, SYS's at its ends. -/
theorem witness_OpcodeMapRowsDecode : 0x0FFF#16 &&& 0xF000#16 = 0x0000#16 ∧ 0x0FFF#16 ≠ 0x00E0#16 ∧
    0x0FFF#16 ≠ 0x00EE#16 ∧ 0x8FFE#16 &&& 0xF00F#16 = 0x800E#16 ∧ 0xFF0A#16 &&& 0xF0FF#16 = 0xF00A#16 := by decide

/-- StepRunsDecodedInstruction: at pc = 0xFFE. -/
def stateAtEnd : State := { around (put (put (m0.setPc 0xFFE#16) 0xFFE 0x60#8) 0xFFF 0x01#8) with pending := [.cpuTick 0#8] }

theorem witness_StepRunsDecodedInstruction : stateAtEnd.runsInstruction = true ∧ stateAtEnd.current.pc.toNat ≤ 0xFFE ∧
    decode (Memory.readList stateAtEnd.current.memory stateAtEnd.current.pc.toNat 2) = .ok (.ldImm 0 1#8, []) := by decide

/-- A StepForward runs an instruction while paused. -/
theorem witness_runsInstruction_paused :
    ({ around m0 with paused := true, rewind := 3, pending := [.stepForward 0#8] } : State).runsInstruction = true := by
  decide

/-- FetchOutOfRangeFaults: the first pc of either clause. -/
theorem witness_FetchOutOfRangeFaults :
    (around (m0.setPc 0xFFF#16)).runsInstruction = true ∧ 0xFFE < (around (m0.setPc 0xFFF#16)).current.pc.toNat ∧
    (around (m0.setPc 0x1000#16)).runsInstruction = true ∧ 0xFFF < (around (m0.setPc 0x1000#16)).current.pc.toNat := by
  decide

/-- A state at a word that is not an instruction. -/
def stateAtIllegal : State := around (put (put m0 0x200 0x81#8) 0x201 0x28#8)

theorem witness_IllegalWordFaults : stateAtIllegal.runsInstruction = true ∧ stateAtIllegal.current.pc.toNat ≤ 0xFFE ∧
    decodeWord (wordOfBytes (Memory.read stateAtIllegal.current.memory stateAtIllegal.current.pc.toNat)
      (Memory.read stateAtIllegal.current.memory (stateAtIllegal.current.pc.toNat + 1))) =
        .error (.illegalGroup8 0x8128#16) := by decide

/-- FaultsArePrecise and NoWordIsDispatchUnreachable: a step that faults, with an opcode and without. -/
theorem witness_FaultsArePrecise : stateAtIllegal.status = .running ∧
    steps stateAtIllegal (fun t => decide (t.status = .faulted
      { fault := .illegalInstruction 0x8128#16, pc := 0x200#16, opcode := some 0x8128#16 })) = true ∧
    steps (around (m0.setPc 0xFFFF#16)) (fun t => decide (t.status = .faulted
      { fault := .memoryOutOfRange 0xFFFF, pc := 0xFFFF#16, opcode := none })) = true := by decide

/-- TerminalStatusIsAbsorbing. -/
theorem witness_TerminalStatusIsAbsorbing : ({ around m0 with status := .quit } : State).status ≠ .running ∧
    ((around m0).takeFault .stackOverflow).status ≠ .running := by decide

/-- InstructionsFaultExactlyWhen: each check on both sides of its edge. -/
theorem witness_faultOf_stack : (depth m0 15).faultOf (.call 0#12) = none ∧
    (depth m0 16).faultOf (.call 0#12) = some .stackOverflow ∧ (depth m0 16).faultOf (.sys 0#12) = some .stackOverflow ∧
    (depth m0 1).faultOf .ret = none ∧ (depth m0 0).faultOf .ret = some .stackUnderflow := by decide

theorem witness_faultOf_memory : (m0.setI 0xFF1#16).faultOf (.drw 0 0 15) = none ∧
    (m0.setI 0xFF2#16).faultOf (.drw 0 0 15) = some (.memoryOutOfRange 0x1000) ∧
    (m0.setI 0xFFFF#16).faultOf (.drw 0 0 0) = none ∧ (m0.setI 0xFFD#16).faultOf (.ldB 0) = none ∧
    (m0.setI 0xFFE#16).faultOf (.ldB 0) = some (.memoryOutOfRange 0x1000) ∧
    (m0.setI 0xFF0#16).faultOf (.ldMemVx 15) = none ∧
    (m0.setI 0xFF1#16).faultOf (.ldVxMem 15) = some (.memoryOutOfRange 0x1000) := by decide

theorem witness_faultOf_key : (m0.setV 1 15#8).faultOf (.skp 1) = none ∧
    (m0.setV 1 16#8).faultOf (.skp 1) = some (.keyIndexOutOfRange 16#8) ∧
    (m0.setV 1 255#8).faultOf (.sknp 1) = some (.keyIndexOutOfRange 255#8) := by decide

/-- DrawInstruction and DrawTwiceRestores: the last block, and N = 0 anywhere; a blank framebuffer. -/
theorem witness_DrawInstruction :
    (around (m0.setI 0xFF1#16)).current.I.toNat + (15 : Fin 16).val - 1 ≤ 0xFFF ∧
    ((0 : Fin 16) = 0 ∨ (around (m0.setI 0xFFFF#16)).current.I.toNat + (0 : Fin 16).val - 1 ≤ 0xFFF) ∧
    (0 : Reg) ≠ 15 ∧ (14 : Reg) ≠ 15 := by decide

theorem witness_DrawTwiceRestores_blank (row col : Nat) (hr : row < 32) (hc : col < 64) :
    (around (m0.setI 0xFF1#16)).current.fb[row][col] = false := by
  simp [around, m0, initialState, blankFramebuffer, MachineState.setI]

/-- CallPushesReturnAddress, CallThenReturn and ReturnPopsTarget: the last free slot; the shallowest and deepest stack. -/
theorem witness_stack : (around (depth m0 15)).current.sp.val < 16 ∧ 0 < (around (depth m0 1)).current.sp.val ∧
    0 < (around (depth m0 16)).current.sp.val ∧
    (15 : Fin 16).val + 1 = (around (depth m0 16)).current.sp.val := by decide

/-- RandomIsMasked: a bit clear in NN, inside the byte and above it. -/
theorem witness_RandomIsMasked : exec (.rnd 3 0x0F#8) (around m0) =
      .next ((around m0).retire ((around m0).fetched.setV 3 ((around m0).draw &&& 0x0F#8))) ∧
    (0x0F#8).getLsbD 4 = false ∧ (0x0F#8).getLsbD 8 = false := ⟨rfl, by decide⟩

/-- StoreDecimalDigits, StoreRegisters, LoadRegisters and StoreThenLoadRestores: the last block. -/
theorem witness_blocks : Memory.wf (around (m0.setI 0xFFD#16)).current.memory = true ∧
    (around (m0.setI 0xFFD#16)).current.I.toNat + 2 ≤ 0xFFF ∧
    (around (m0.setI 0xFF0#16)).current.I.toNat + (15 : Reg).val ≤ 0xFFF ∧
    (around (m0.setI 0xFFF#16)).current.I.toNat + (0 : Reg).val ≤ 0xFFF := by decide

/-- StoreThenLoadRestores: the state after the store is one to load in, and so is one with V0 changed. -/
theorem witness_StoreThenLoadRestores : execs (.ldMemVx 0) (around (m0.setI 0xFFF#16)) (fun t =>
    decide ((around (t.current.setV 0 9#8)).current.memory = t.current.memory ∧
      (around (t.current.setV 0 9#8)).current.I = t.current.I ∧
      ∀ r : Reg, 0 < r → (around (t.current.setV 0 9#8)).current.getV r = t.current.getV r)) = true := by decide

/-- StoreSeenByNextFetch: the last instruction, with the last block of either instruction over it. -/
theorem witness_StoreSeenByNextFetch :
    Memory.wf (around ((m0.setPc 0xFFC#16).setI 0xFFD#16)).current.memory = true ∧
    ((around ((m0.setPc 0xFFC#16).setI 0xFFD#16)).current.pc + 2#16).toNat ≤ 0xFFE ∧
    (around ((m0.setPc 0xFFC#16).setI 0xFFD#16)).current.I.toNat + (2 : Reg).val ≤ 0xFFF ∧
    (around ((m0.setPc 0xFFC#16).setI 0xFFD#16)).current.I.toNat + 2 ≤ 0xFFF := by decide

/-- R61, by hand: FX33 at I = pc + 3 with Vx = 157 puts 1 in the low byte of the next word; FX55 at I = pc + 2, X = 1. -/
theorem test_store_over_next : execs (.ldB 5) (around ((m0.setI 0x203#16).setV 5 157#8)) (fun t =>
      decide (t.current.fetchWord.toOption = some 0x0001#16)) = true ∧
    execs (.ldMemVx 1) (around (((m0.setI 0x202#16).setV 0 0xA1#8).setV 1 0x23#8)) (fun t =>
      decide (t.current.fetchWord.toOption = some 0xA123#16)) = true := by decide

/-- SkipOnKey: the last key. -/
theorem witness_SkipOnKey : ((around (m0.setV 1 15#8)).current.getV 1).toNat = (15 : Fin 16).val := by decide

/-- WaitForKey: the last key alone, two keys, and none. -/
theorem witness_WaitForKey :
    (0 < (around (key m0 15 1#8)).current.keys[(15 : Fin 16)].toNat ∧
      ∀ j : Fin 16, j < 15 → (around (key m0 15 1#8)).current.keys[j].toNat = 0) ∧
    (0 < (around (key (key m0 4 1#8) 9 2#8)).current.keys[(4 : Fin 16)].toNat ∧
      ∀ j : Fin 16, j < 4 → (around (key (key m0 4 1#8) 9 2#8)).current.keys[j].toNat = 0) ∧
    ∀ k : Fin 16, (around m0).current.keys[k].toNat = 0 := by decide

/-- OnlyNamedRegistersWritten: a register that is not named, of a load's block and of a sum. -/
theorem witness_OnlyNamedRegistersWritten : execs (.ldVxMem 3) (around m0) (fun _ => true) = true ∧
    writesReg (.ldVxMem 3) 4 = false ∧ execs (.addReg 1 2) (around m0) (fun _ => true) = true ∧
    writesReg (.addReg 1 2) 2 = false := by decide

/-- OnlyListedInstructionsWrite: each field that some instruction writes does change. -/
theorem witness_OnlyListedInstructionsWrite :
    execs (.ldI 7#12) (around m0) (fun t => decide (t.current.I ≠ m0.I)) = true ∧
    execs (.call 7#12) (around m0) (fun t => decide (t.current.stack ≠ m0.stack ∧ t.current.sp ≠ m0.sp)) = true ∧
    execs .ret (around (depth m0 1)) (fun t => decide (t.current.sp ≠ (depth m0 1).sp)) = true ∧
    execs (.ldDTVx 1) (around (m0.setV 1 3#8)) (fun t => decide (t.current.DT ≠ m0.DT)) = true ∧
    execs (.ldSTVx 1) (around (m0.setV 1 3#8)) (fun t => decide (t.current.ST ≠ m0.ST)) = true ∧
    execs .cls (around (lit m0 31 63)) (fun t => decide (t.current.fb ≠ (lit m0 31 63).fb)) = true ∧
    execs (.ldB 1) (around (m0.setI 0x300#16 |>.setV 1 3#8)) (fun t => decide (t.current.memory ≠ m0.memory)) = true := by
  decide

/-- CpuTickBranches: a rewind; neither, for either reason, paused and not. -/
theorem witness_CpuTickBranches :
    (0 < ({ around m0 with rewind := 1, history := [m0] } : State).rewind ∧
      ({ around m0 with rewind := 1, history := [m0] } : State).history = [] ++ [m0]) ∧
    ({ around m0 with rewind := 0, history := [m0], paused := true } : State).rewind = 0 ∧
    ({ around m0 with rewind := 1, history := [], paused := true } : State).history = [] ∧
    ({ around m0 with rewind := 1, paused := true } : State).paused = true ∧ (around m0).paused = false ∧
    (around m0).status = .running := by decide

/-- StepCommands: a StepForward that answers, a snapshot to restore and none. -/
theorem witness_StepCommands : (around m0).status = .running ∧
    delivers (around m0) [.stepForward 0#8] (fun t => decide (t.history = [m0])) = true ∧
    ({ around m0 with history := [m0, m0.setI 1#16] } : State).history = [m0] ++ [m0.setI 1#16] ∧
    (around m0).history = [] := by decide

/-- PushKeepsCapacity: just enough room; full; a history that just fits. -/
theorem witness_PushKeepsCapacity : HasRoom (.bounded 2) ([m0].length + 1) ∧
    (HistoryCapacity.bounded 1 = .bounded 1 ∧ [m0] = m0 :: [] ∧ [m0].length = 1) ∧
    (HistoryCapacity.bounded 1 ≠ .bounded 0 ∧ HistoryFits (.bounded 1) [m0]) :=
  ⟨Nat.le_refl 2, ⟨rfl, rfl, rfl⟩, by decide, Nat.le_refl 1⟩

/-- StepForwardThenBack: just enough room for one push. -/
theorem witness_StepForwardThenBack : (around m0).status = .running ∧
    HasRoom ({ around m0 with params := { Params.default with historyCapacity := .bounded 1 } } : State).params.historyCapacity
      ((around m0).history.length + 1) ∧
    delivers { around m0 with params := { Params.default with historyCapacity := .bounded 1 } } [.stepForward 0#8]
      (fun _ => true) = true := ⟨rfl, Nat.le_refl 1, by decide⟩

/-- The device events and the commands: a running state that is paused and rewinding, and one that is not. -/
theorem witness_events : ({ around m0 with paused := true, rewind := 2 } : State).status = .running ∧
    0 < ({ around m0 with paused := true, rewind := 2 } : State).rewind ∧ (around m0).rewind = 0 ∧
    delivers (around (m0.setDT 1#8)) [.timerTick] (fun t => decide (t.current.DT = 0#8)) = true ∧
    delivers (around m0) [.keyPress 15] (fun t => decide (t.current.keys ≠ m0.keys)) = true ∧
    delivers (around (key m0 15 1#8)) [.keyDecayTick] (fun t => decide (t.current.keys = m0.keys)) = true := by decide

/-- OnlyListedEventsChangeScheduler: the counter and `paused` do change. -/
theorem witness_OnlyListedEventsChangeScheduler :
    steps { around m0 with pending := [.beginRewind 5] } (fun t => decide (t.rewind = 5)) = true ∧
    steps { around m0 with rewind := 5, pending := [.rewindDecay] } (fun t => decide (t.rewind = 4)) = true ∧
    steps { around m0 with rewind := 5, pending := [.reset] } (fun t => decide (t.rewind = 0)) = true ∧
    steps { around m0 with pending := [.setPaused true] } (fun t => decide (t.paused = true)) = true := by decide

/-- OnlyListedEventsChangeSoundTimer: by LD ST, a restore and a reset. -/
theorem witness_OnlyListedEventsChangeSoundTimer :
    steps ((around (m0.setV 3 1#8)).withFetchWord 16 0xF318) (fun t => decide (t.current.ST ≠ m0.ST)) = true ∧
    steps { around m0 with history := [m0.setST 2#8], pending := [.stepBack] } (fun t =>
      decide (t.current.ST ≠ m0.ST)) = true ∧
    steps { around (m0.setST 2#8) with pending := [.reset] } (fun t => decide (t.current.ST ≠ 2#8)) = true := by decide

/-- OnlyListedEventsChangeKeys: by a press, a decay and a reset. -/
theorem witness_OnlyListedEventsChangeKeys :
    steps { around m0 with pending := [.keyPress 0] } (fun t => decide (t.current.keys ≠ m0.keys)) = true ∧
    steps { around (key m0 0 1#8) with pending := [.keyDecayTick] } (fun t => decide (t.current.keys = m0.keys)) = true ∧
    steps { around (key m0 0 1#8) with pending := [.reset] } (fun t => decide (t.current.keys = m0.keys)) = true := by decide

/-- StepDeliversNextEvent: a channel with events, one without, and an infinite sequence whose beginning answers. -/
theorem witness_StepDeliversNextEvent : (around m0).pending = .cpuTick 0#8 :: [] ∧ State.reset.pending = [] ∧
    State.runStream (around m0) (fun _ => .timerTick) 0 = .next (around m0) := ⟨rfl, rfl, rfl⟩

/-- RewindRestoresExactly: two forward ticks from zero memory, device events between, at the least capacity. -/
def twoTicks : State := { around m0 with params := { Params.default with historyCapacity := .bounded 2 } }

theorem witness_RewindRestoresExactly : twoTicks.status = .running ∧ twoTicks.paused = false ∧ twoTicks.rewind = 0 ∧
    HasRoom twoTicks.params.historyCapacity
      (twoTicks.history.length + (cpuTicks [.timerTick, .cpuTick 0#8, .keyPress 3] + 1)) ∧
    (∀ e ∈ [Event.timerTick, .cpuTick 0#8, .keyPress 3], e.inRewindSpan = true) ∧
    (∀ e ∈ [Event.cpuTick 0#8, .keyDecayTick], e.inRewindSpan = true) ∧
    delivers twoTicks [.cpuTick 0#8, .timerTick, .cpuTick 0#8, .keyPress 3] (fun _ => true) = true ∧ 0 < 1 ∧
    cpuTicks [.cpuTick 0#8, .keyDecayTick] = cpuTicks [.timerTick, .cpuTick 0#8, .keyPress 3] :=
  ⟨rfl, rfl, rfl, Nat.le_refl 2, by decide, by decide, by decide, by decide, by decide⟩

/-- StepKeepsInv: a state with a pressed key, a byte stored and a snapshot. -/
def stateWithHistory : State :=
  { around (key (put m0 0xFFF 5#8) 15 2#8) with
    history := [m0], params := { Params.default with historyCapacity := .bounded 1 }, pending := [.keyDecayTick] }

theorem witness_StepKeepsInv : stateWithHistory.Inv ∧ steps stateWithHistory (fun _ => true) = true := by
  refine ⟨⟨⟨by decide, by decide⟩, ⟨by decide, ⟨by decide, by decide⟩⟩, ?_, Nat.le_refl 1⟩, by decide⟩
  intro m hm
  obtain rfl : m = m0 := by simpa [stateWithHistory] using hm
  exact ⟨by decide, by decide, by decide⟩

/-- CanonicalMemoriesAgree: two orders of writing. -/
theorem witness_CanonicalMemoriesAgree :
    Memory.wf (Memory.write (Memory.write [] 0xFFF 1#8) 0 2#8) = true ∧
    Memory.wf (Memory.write (Memory.write [] 0 2#8) 0xFFF 1#8) = true ∧
    ∀ a, Memory.read (Memory.write (Memory.write [] 0xFFF 1#8) 0 2#8) a =
      Memory.read (Memory.write (Memory.write [] 0 2#8) 0xFFF 1#8) a :=
  ⟨by decide, by decide, fun _ => rfl⟩

/-- PowerOnState and LoadChecksProgramLength: the longest program that fits, the shortest that does not, a capacity of 0. -/
theorem witness_load : ({ Params.default with rom := List.replicate 3584 0#8 } : Params).rom.length ≤ 3584 ∧
    Params.Ok { Params.default with rom := List.replicate 3584 0#8 } ∧
    3584 < ({ Params.default with rom := List.replicate 3585 0#8 } : Params).rom.length ∧
    ({ Params.default with historyCapacity := .bounded 0 } : Params).rom.length ≤ 3584 ∧
    ({ Params.default with historyCapacity := .bounded 0 } : Params).historyCapacity = .bounded 0 :=
  ⟨by rw [List.length_replicate], ⟨by rw [List.length_replicate]; decide, by decide⟩, by
    rw [List.length_replicate]; decide, by decide, rfl⟩

end Sys2Proof.Tests
end

/-! ## Which faults a step can raise

The decoder rejects a word only in groups 8, E and F, and an instruction faults only as its "Exceptions" line says; a
step that faults does so in its fetch, in its decoding or in its instruction. -/

namespace Sys2Proof

/-! ### The words the decoder rejects (R77, R78) -/

theorem decodeGroup8_error {w : Word} {e : Reject} (h : decodeGroup8 w = .error e) : e = .illegalGroup8 w := by
  unfold decodeGroup8 at h
  split at h <;> cases h
  rfl

theorem decodeGroupE_error {w : Word} {e : Reject} (h : decodeGroupE w = .error e) : e = .illegalGroupE w := by
  unfold decodeGroupE at h
  repeat' split at h
  all_goals cases h
  rfl

theorem decodeGroupF_error {w : Word} {e : Reject} (h : decodeGroupF w = .error e) : e = .illegalGroupF w := by
  unfold decodeGroupF at h
  repeat' split at h
  all_goals cases h
  rfl

/-- Only groups 8, E and F reject a word: the sixteen groups are every value of the top nibble, so none is left for
`noGroup`. -/
theorem decodeWord_error {w : Word} {e : Reject} (h : decodeWord w = .error e) :
    e = .illegalGroup8 w ∨ e = .illegalGroupE w ∨ e = .illegalGroupF w := by
  have hg : (fieldGroup w).toNat < 16 := (fieldGroup w).isLt
  unfold decodeWord at h
  split at h
  case h_9 => exact .inl (decodeGroup8_error h)
  case h_15 => exact .inr (.inl (decodeGroupE_error h))
  case h_16 => exact .inr (.inr (decodeGroupF_error h))
  case h_17 =>
    simp only [imp_false] at *
    omega
  all_goals cases h

end Sys2Proof

namespace Sys2Proof.Machine

/-- A rejected word is an illegal instruction (R77). -/
theorem rejectFault_of_decodeWord_error {w : Word} {e : Reject} (h : decodeWord w = .error e) :
    rejectFault w e = .illegalInstruction w := by
  rcases decodeWord_error h with rfl | rfl | rfl <;> rfl

/-! ### The fault of each shared effect, and the check that raises it -/

theorem MachineState.fetchWord_error_cases {m : MachineState} {f : Fault} (h : m.fetchWord = .error f) :
    0xFFE < m.pc.toNat ∧ f = .memoryOutOfRange (max m.pc.toNat 0x1000) := by
  by_cases hp : m.pc.toNat ≤ 0xFFE
  · rw [fetchWord_ok hp] at h; cases h
  · rw [fetchWord_error (by omega)] at h; cases h
    exact ⟨by omega, rfl⟩

theorem MachineState.push_error_cases {m : MachineState} {v : Word} {f : Fault} (h : m.push v = .error f) :
    m.sp = 16 ∧ f = .stackOverflow := by
  unfold push at h
  split at h <;> cases h
  exact ⟨Fin.ext (show m.sp.val = 16 by omega), rfl⟩

theorem MachineState.pop_error_cases {m : MachineState} {f : Fault} (h : m.pop = .error f) :
    m.sp = 0 ∧ f = .stackUnderflow := by
  unfold pop at h
  split at h <;> cases h
  exact ⟨Fin.ext (show m.sp.val = 0 by omega), rfl⟩

theorem MachineState.callTo_error_cases {m : MachineState} {a : Addr12} {f : Fault} (h : m.callTo a = .error f) :
    m.sp = 16 ∧ f = .stackOverflow := by
  unfold callTo at h
  split at h <;> cases h
  exact push_error_cases ‹_›

theorem MachineState.returnPopped_error_cases {m : MachineState} {f : Fault} (h : m.returnPopped = .error f) :
    m.sp = 0 ∧ f = .stackUnderflow := by
  unfold returnPopped at h
  split at h <;> cases h
  exact pop_error_cases ‹_›

theorem MachineState.checkBlock_error_cases {m : MachineState} {n : Nat} {f : Fault} (h : m.checkBlock n = .error f) :
    (0 < n ∧ 0x1000 < m.I.toNat + n) ∧ f = .memoryOutOfRange (max m.I.toNat 0x1000) := by
  unfold checkBlock at h
  split at h <;> cases h
  rename_i hc
  rw [memSize_eq] at hc
  exact ⟨by omega, rfl⟩

theorem MachineState.storeBlock_error_cases {m : MachineState} {vs : List Byte} {f : Fault}
    (h : m.storeBlock vs = .error f) :
    (0 < vs.length ∧ 0x1000 < m.I.toNat + vs.length) ∧ f = .memoryOutOfRange (max m.I.toNat 0x1000) := by
  unfold storeBlock at h
  split at h <;> cases h
  exact checkBlock_error_cases ‹_›

theorem MachineState.loadBlock_error_cases {m : MachineState} {n : Nat} {f : Fault} (h : m.loadBlock n = .error f) :
    (0 < n ∧ 0x1000 < m.I.toNat + n) ∧ f = .memoryOutOfRange (max m.I.toNat 0x1000) := by
  unfold loadBlock at h
  split at h <;> cases h
  exact checkBlock_error_cases ‹_›

theorem MachineState.loadUpTo_error_cases {m : MachineState} {x : Reg} {f : Fault} (h : m.loadUpTo x = .error f) :
    0xFFF < m.I.toNat + x.val ∧ f = .memoryOutOfRange (max m.I.toNat 0x1000) := by
  unfold loadUpTo at h
  split at h <;> cases h
  obtain ⟨⟨-, hr⟩, rfl⟩ := loadBlock_error_cases ‹_›
  exact ⟨by omega, rfl⟩

theorem MachineState.draw_error_cases {m : MachineState} {x y : Reg} {n : Nat} {f : Fault}
    (h : m.draw x y n = .error f) :
    (0 < n ∧ 0x1000 < m.I.toNat + n) ∧ f = .memoryOutOfRange (max m.I.toNat 0x1000) := by
  unfold draw at h
  split at h <;> cases h
  exact loadBlock_error_cases ‹_›

theorem MachineState.keyOperand_error_cases {m : MachineState} {x : Reg} {f : Fault} (h : m.keyOperand x = .error f) :
    15 < (m.getV x).toNat ∧ f = .keyIndexOutOfRange (m.getV x) := by
  unfold keyOperand at h
  split at h <;> cases h
  exact ⟨by omega, rfl⟩

theorem MachineState.skipIfKey_error_cases {m : MachineState} {x : Reg} {f : Fault} (h : m.skipIfKey x = .error f) :
    15 < (m.getV x).toNat ∧ f = .keyIndexOutOfRange (m.getV x) := by
  unfold skipIfKey at h
  split at h <;> cases h
  exact keyOperand_error_cases ‹_›

theorem MachineState.skipIfNotKey_error_cases {m : MachineState} {x : Reg} {f : Fault}
    (h : m.skipIfNotKey x = .error f) : 15 < (m.getV x).toNat ∧ f = .keyIndexOutOfRange (m.getV x) := by
  unfold skipIfNotKey at h
  split at h <;> cases h
  exact keyOperand_error_cases ‹_›

/-! ### The fault of an instruction (R222) -/

/-- An effect that fails does so by its instruction's execute-time check, with that check's fault. -/
theorem State.faultOf_of_effectOf_error {s : State} {i : Instr} {f : Fault} (h : s.effectOf i = .error f) :
    s.current.faultOf i = some f := by
  cases i
  case ret =>
    obtain ⟨hc, rfl⟩ := MachineState.returnPopped_error_cases h
    exact if_pos hc
  case sys | call =>
    obtain ⟨hc, rfl⟩ := MachineState.callTo_error_cases h
    exact if_pos hc
  case drw x y n =>
    obtain ⟨⟨hn, hc⟩, rfl⟩ := MachineState.draw_error_cases h
    exact if_pos ⟨hn, by rw [fetched_eq, MachineState.advance_I] at hc; omega⟩
  case skp =>
    obtain ⟨hc, rfl⟩ := MachineState.skipIfKey_error_cases h
    exact if_pos hc
  case sknp =>
    obtain ⟨hc, rfl⟩ := MachineState.skipIfNotKey_error_cases h
    exact if_pos hc
  case ldB x =>
    obtain ⟨⟨-, hc⟩, rfl⟩ := MachineState.storeBlock_error_cases h
    simp only [bcdDigits, List.length_cons, List.length_nil, fetched_eq, MachineState.advance_I] at hc
    exact if_pos (by omega)
  case ldMemVx x =>
    obtain ⟨⟨-, hc⟩, rfl⟩ := MachineState.storeBlock_error_cases h
    exact if_pos (by rw [MachineState.length_regsUpTo, fetched_eq, MachineState.advance_I] at hc; omega)
  case ldVxMem =>
    obtain ⟨hc, rfl⟩ := MachineState.loadUpTo_error_cases h
    exact if_pos hc
  all_goals cases h

/-- No instruction's "Exceptions" line names the unreachable dispatch. -/
theorem MachineState.faultOf_ne_dispatchUnreachable (m : MachineState) (i : Instr) (w : Word) :
    m.faultOf i ≠ some (.dispatchUnreachable w) := by
  intro h
  cases i
  case sys | call | ret | drw | ldB | ldMemVx | ldVxMem | skp | sknp =>
    simp only [faultOf] at h
    split at h <;> cases h
  all_goals cases h

/-! ### Where a step's fault comes from -/

theorem State.fault_of_takeFault_status {s : State} {f : Fault} {rec : FaultRecord}
    (h : (s.takeFault f).status = .faulted rec) : rec.fault = f := by
  rw [takeFault_eq, faultedWith_status] at h
  cases h; rfl

/-- An interpreter step that faults does so in its fetch, in its decoding or in its instruction (R72, R231). -/
theorem State.interpStep_faulted {s t : State} {rec : FaultRecord} (h : s.interpStep = .next t)
    (hs : s.status = .running) (ht : t.status = .faulted rec) :
    s.current.fetchWord = .error rec.fault ∨
    (∃ w e, s.current.fetchWord = .ok w ∧ decodeWord w = .error e ∧ rec.fault = rejectFault w e) ∨
    ∃ i, s.current.nextInstr = some i ∧ s.effectOf i = .error rec.fault := by
  cases hw : s.current.fetchWord with
  | error f =>
    rw [interpStep_fetch_error hw] at h; cases h
    exact .inl (by rw [fault_of_takeFault_status ht])
  | ok w =>
    cases hd : decodeWord w with
    | error e =>
      rw [interpStep_decode_error hw hd] at h; cases h
      exact .inr (.inl ⟨w, e, rfl, hd, fault_of_takeFault_status ht⟩)
    | ok i =>
      rw [interpStep_decode_ok hw hd] at h
      rcases exec_cases h with ⟨m, -, rfl⟩ | ⟨f, hf, rfl⟩
      · rw [retire_status, hs] at ht; cases ht
      · exact .inr (.inr ⟨i, by simp only [MachineState.nextInstr, hw, hd], by rw [fault_of_takeFault_status ht, hf]⟩)

/-- A step that faults is one whose event makes an interpreter step. -/
theorem interpStep_of_step_faulted {s t : State} {rec : FaultRecord} (h : step s = .next t)
    (hs : s.status = .running) (ht : t.status = .faulted rec) : s.pushed.interpStep = .next t := by
  rcases step_cases h with ⟨hn, -⟩ | ⟨-, -, hi⟩ | ⟨-, -, _, _, -, rfl⟩ | ⟨-, rfl⟩ | ⟨-, -, rfl⟩ | ⟨-, -, rfl⟩ |
    ⟨-, _, -, rfl⟩ | ⟨-, _, -, rfl⟩ | ⟨-, -, rfl⟩ | ⟨-, _, -, rfl⟩ | ⟨-, -, rfl⟩ | ⟨-, -, rfl⟩
  · exact absurd hs hn
  · exact hi
  all_goals simp [hs] at ht

/-- Settles O6: a rejected word is illegal by its group; a step's fault comes from the fetch, such a word, or an
instruction's own check, none of which is the unreachable dispatch. -/
theorem noWordIsDispatchUnreachable : Obligations.NoWordIsDispatchUnreachable := by
  refine ⟨fun w e => rejectFault_of_decodeWord_error, fun s t rec w h hs ht hf => ?_⟩
  have hi := interpStep_of_step_faulted h hs ht
  rcases State.interpStep_faulted hi hs ht with hfetch | ⟨w', e, -, hd, hr⟩ | ⟨i, -, he⟩
  · obtain ⟨-, hm⟩ := MachineState.fetchWord_error_cases hfetch
    rw [hf] at hm; cases hm
  · rw [hf, rejectFault_of_decodeWord_error hd] at hr; cases hr
  · rw [hf] at he
    exact MachineState.faultOf_ne_dispatchUnreachable _ i w (State.faultOf_of_effectOf_error he)

end Sys2Proof.Machine

/-! ## The display

Clearing the screen, and the sprite engine row by row: the rest of a sprite lies below its first row, so that no pixel is
drawn twice and each collision is with a pixel as it was before the draw. -/

namespace Sys2Proof.Machine

/-! ### Instructions that complete -/

/-- A mask of all bits leaves one word to decode (R76). -/
theorem encoded_of_decodeWord {bits : Word} {i : Instr} (h : decodeWord bits = .ok i) :
    Encoded 0xFFFF#16 bits (fun _ => i) := by
  intro w hw
  rw [show 0xFFFF#16 = BitVec.allOnes 16 from rfl, BitVec.and_allOnes] at hw
  rw [hw, h]

/-- An instruction whose effect answers completes with that effect retired. -/
theorem completes_of_effectOf_ok {i : Instr} {s : State} {m : MachineState} {P : State → Prop}
    (h : s.effectOf i = .ok m) (hP : P (s.retire m)) : Completes i s P :=
  ⟨s.retire m, by rw [exec_eq_finish, h, State.finish_ok], hP⟩

/-- Retiring touches nothing of the scheduler. -/
theorem sameScheduler_retire (s : State) (m : MachineState) : SameScheduler s (s.retire m) :=
  ⟨rfl, rfl, rfl, rfl, rfl, rfl, rfl, rfl⟩

/-! ### CLS (R101, R106) -/

@[simp] theorem getElem_blankFramebuffer (row col : Nat) (hr : row < 32) (hc : col < 64) :
    blankFramebuffer[row][col] = false := by
  simp only [blankFramebuffer, Vector.getElem_replicate]

/-- Settles O14: the one word of CLS decodes to it, and its effect replaces the framebuffer alone. -/
theorem clearScreen : Obligations.ClearScreen := by
  refine ⟨encoded_of_decodeWord rfl, fun s => completes_of_effectOf_ok rfl ⟨rfl, ?_, fun _ => rfl, ?_, fun _ => rfl,
    sameScheduler_retire s _⟩⟩
  · exact getElem_blankFramebuffer
  · exact ⟨rfl, rfl, rfl, rfl, rfl, rfl⟩

/-! ### The sprite's own pixels (R103) -/

/-- A pixel reads as lit exactly at a lit place of the grid. -/
theorem pixelAt_eq_true {fb : Framebuffer} {row col : Nat} :
    pixelAt fb row col = true ↔ ∃ (hr : row < 32) (hc : col < 64), fb[row][col] = true := by
  by_cases h : row < 32 ∧ col < 64
  · simp only [pixelAt_eq fb row col h.1 h.2, h, exists_true_left]
  · rw [pixelAt_outside fb row col h]
    exact iff_of_false Bool.false_ne_true fun ⟨hr, hc, _⟩ => h ⟨hr, hc⟩

@[simp] theorem spriteBit_nil (x0 y0 row col : Nat) : spriteBit x0 y0 [] row col = false := by
  simp only [spriteBit, List.length_nil, Bool.and_eq_false_iff, decide_eq_false_iff_not]
  exact .inl (by omega)

/-- No pixel of a sprite lands above its origin. -/
theorem spriteBit_above (x0 y0 : Nat) (rows : List Byte) (row col : Nat) (h : row < y0) :
    spriteBit x0 y0 rows row col = false := by
  simp only [spriteBit, Bool.and_eq_false_iff, decide_eq_false_iff_not]
  exact .inl (by omega)

/-- The top row of a sprite is its first byte, bit 7 leftmost. -/
theorem spriteBit_cons_top (x0 y0 : Nat) (b : Byte) (rest : List Byte) (col : Nat) :
    spriteBit x0 y0 (b :: rest) y0 col = (decide (x0 ≤ col ∧ col < x0 + 8) && b.getLsbD (7 - (col - x0))) := by
  simp [spriteBit]

/-- Off its top row, a sprite is the rest of its rows from one row lower. -/
theorem spriteBit_cons_of_ne (x0 y0 : Nat) (b : Byte) (rest : List Byte) (row col : Nat) (h : row ≠ y0) :
    spriteBit x0 y0 (b :: rest) row col = spriteBit x0 (y0 + 1) rest row col := by
  by_cases hlt : row < y0
  · rw [spriteBit_above _ _ _ _ _ hlt, spriteBit_above _ _ _ _ _ (by omega)]
  · obtain ⟨k, rfl⟩ : ∃ k, row = y0 + 1 + k := ⟨row - (y0 + 1), by omega⟩
    have hk : y0 + 1 + k - y0 = k + 1 := by omega
    have hd : (y0 ≤ y0 + 1 + k ∧ y0 + 1 + k < y0 + (b :: rest).length ∧ x0 ≤ col ∧ col < x0 + 8) ↔
        (y0 + 1 ≤ y0 + 1 + k ∧ y0 + 1 + k < y0 + 1 + rest.length ∧ x0 ≤ col ∧ col < x0 + 8) := by
      rw [List.length_cons]; omega
    simp only [spriteBit, hd, hk, Nat.add_sub_cancel_left, List.getD_cons_succ]

/-! ### The sprite's rows drawn (R103 to R105) -/

/-- A row drawn leaves every other row as it was. -/
theorem pixelAt_drawRow_of_ne (st : Framebuffer × Bool) (x0 row : Nat) (b : Byte) (r c : Nat) (h : r ≠ row) :
    pixelAt (drawRow st x0 row b).1 r c = pixelAt st.1 r c := by
  rw [pixelAt_drawRow, decide_eq_false (fun hr => h hr.1), Bool.false_and, Bool.xor_false]

/-- Sprite rows drawn: every place of the grid is XORed with the sprite's pixel there. -/
theorem pixelAt_drawRows (st : Framebuffer × Bool) (x0 row : Nat) (rows : List Byte) (r c : Nat)
    (hr : r < 32) (hc : c < 64) :
    pixelAt (drawRows st x0 row rows).1 r c = (pixelAt st.1 r c ^^ spriteBit x0 row rows r c) := by
  induction rows generalizing st row with
  | nil => rw [drawRows, spriteBit_nil, Bool.xor_false]
  | cons b rest ih =>
    rw [drawRows, ih]
    by_cases h : r = row
    · subst h
      rw [spriteBit_above _ _ _ _ _ (Nat.lt_succ_self r), Bool.xor_false, pixelAt_drawRow, spriteBit_cons_top]
      simp only [hr, hc, true_and, and_true]
    · rw [pixelAt_drawRow_of_ne _ _ _ _ _ _ h, spriteBit_cons_of_ne _ _ _ _ _ _ h]

/-- Sprite rows drawn: a collision is one from before, or a lit pixel from before that a lit sprite pixel meets. -/
theorem drawRows_collision (st : Framebuffer × Bool) (x0 row : Nat) (rows : List Byte) :
    (drawRows st x0 row rows).2 = true ↔
      st.2 = true ∨ ∃ r c, pixelAt st.1 r c = true ∧ spriteBit x0 row rows r c = true := by
  induction rows generalizing st row with
  | nil => simp only [drawRows, spriteBit_nil, Bool.false_eq_true, and_false, exists_false, or_false]
  | cons b rest ih =>
    rw [drawRows, ih, drawRow_collision, or_assoc]
    refine or_congr_right ⟨?_, ?_⟩
    · rintro (⟨c, hle, hlt, hp, hb⟩ | ⟨r, c, hp, hs⟩)
      · exact ⟨row, c, hp, by rw [spriteBit_cons_top, decide_eq_true ⟨hle, hlt⟩, hb]; rfl⟩
      · have hr : r ≠ row := by
          rintro rfl
          rw [spriteBit_above _ _ _ _ _ (Nat.lt_succ_self r)] at hs; cases hs
        rw [pixelAt_drawRow_of_ne _ _ _ _ _ _ hr] at hp
        exact ⟨r, c, hp, by rw [spriteBit_cons_of_ne _ _ _ _ _ _ hr, hs]⟩
    · rintro ⟨r, c, hp, hs⟩
      by_cases hr : r = row
      · subst hr
        rw [spriteBit_cons_top, Bool.and_eq_true, decide_eq_true_eq] at hs
        obtain ⟨⟨hle, hlt⟩, hb⟩ := hs
        exact .inl ⟨c, hle, hlt, hp, hb⟩
      · rw [spriteBit_cons_of_ne _ _ _ _ _ _ hr] at hs
        exact .inr ⟨r, c, by rw [pixelAt_drawRow_of_ne _ _ _ _ _ _ hr, hp], hs⟩

/-- Settles O15: the rows drawn from the wrapped origin, with no collision before the first. -/
theorem drawSpritePixels : Obligations.DrawSpritePixels := by
  refine fun fb ox oy rows => ⟨fun row col hr hc => ?_, ?_⟩
  · rw [← pixelAt_eq _ row col hr hc, ← pixelAt_eq fb row col hr hc]
    exact pixelAt_drawRows (fb, false) _ _ rows row col hr hc
  · rw [drawSprite, drawRows_collision, wrapX_eq, wrapY_eq]
    simp only [Bool.false_eq_true, false_or, pixelAt_eq_true, exists_and_right]

end Sys2Proof.Machine

/-! ## Control transfer

The effect of an instruction that moves only `pc` is the state with `pc` at the target; a skip chooses between the two
instructions that follow. -/

namespace Sys2Proof.Machine

/-! ### Words told apart by their top nibble (R76) -/

/-- A row of the opcode map whose mask is the top nibble: the words of that group. -/
theorem encoded_of_fieldGroup {g : BitVec 4} {f : Word → Instr}
    (h : ∀ w, fieldGroup w = g → decodeWord w = .ok (f w)) : Encoded 0xF000#16 (wordNNN g 0#12) f := by
  intro w hw
  rw [and_F000] at hw
  have hg := congrArg fieldGroup hw
  rw [fieldGroup_wordNNN, fieldGroup_wordNNN] at hg
  exact h w hg

theorem decodeWord_group1 {w : Word} (h : fieldGroup w = 0x1#4) : decodeWord w = .ok (.jp (fieldNNN w)) := by
  rw [decodeWord, h]; rfl

theorem decodeWord_group3 {w : Word} (h : fieldGroup w = 0x3#4) :
    decodeWord w = .ok (.seImm (fieldX w) (fieldNN w)) := by
  rw [decodeWord, h]; rfl

theorem decodeWord_group4 {w : Word} (h : fieldGroup w = 0x4#4) :
    decodeWord w = .ok (.sneImm (fieldX w) (fieldNN w)) := by
  rw [decodeWord, h]; rfl

/-! ### Instructions that move only `pc` -/

/-- An effect that sets `pc` alone is all such an instruction does. -/
theorem pcWrite_of_effectOf_setPc {i : Instr} {s : State} {v : Word} (h : s.effectOf i = .ok (s.current.setPc v)) :
    PcWrite i s v := by
  have hspecial : SameSpecial s (s.retire (s.current.setPc v)) := ⟨rfl, rfl, rfl, rfl, rfl, rfl⟩
  exact completes_of_effectOf_ok h ⟨rfl, fun _ => rfl, hspecial, rfl, fun _ => rfl, sameScheduler_retire s _⟩

/-- After the advance of fetch, a skip that is taken leaves `pc` past the next instruction, else at it (R72, R120). -/
theorem MachineState.skipIf_advance (m : MachineState) (c : Bool) :
    m.advance.skipIf c = m.setPc (if c then m.pc + 4#16 else m.pc + 2#16) := by
  cases c
  case false => rfl
  case true => exact congrArg m.setPc (BitVec.add_assoc m.pc 2#16 2#16)

theorem pcWrite_of_effectOf_skipIf {i : Instr} {s : State} {c : Bool}
    (h : s.effectOf i = .ok (s.fetched.skipIf c)) :
    PcWrite i s (if c then s.current.pc + 4#16 else s.current.pc + 2#16) :=
  pcWrite_of_effectOf_setPc (by rw [h, State.fetched_eq, MachineState.skipIf_advance])

/-! ### JP (R125) -/

/-- The target as the statements write it. -/
theorem addrWord_eq_ofNat (a : Addr12) : addrWord a = BitVec.ofNat 16 a.toNat :=
  (BitVec.ofNat_toNat 16 a).symm

/-- Settles O18: group 1 is JP, and its effect overwrites the `pc` that fetch advanced. -/
theorem jumpSetsPc : Obligations.JumpSetsPc := by
  refine ⟨encoded_of_fieldGroup fun _ => decodeWord_group1, fun nnn s => ?_⟩
  rw [← addrWord_eq_ofNat]
  exact pcWrite_of_effectOf_setPc rfl

/-! ### SE and SNE with an immediate (R127, R128) -/

/-- Settles O20: groups 3 and 4 are SE and SNE, whose skips are taken on opposite outcomes of one comparison. -/
theorem skipOnImmediate : Obligations.SkipOnImmediate := by
  refine ⟨encoded_of_fieldGroup fun _ => decodeWord_group3,
    encoded_of_fieldGroup fun _ => decodeWord_group4, fun x nn s => ⟨?_, ?_⟩⟩
  · have h := pcWrite_of_effectOf_skipIf (i := .seImm x nn) (s := s) (c := s.current.getV x == nn) rfl
    simpa only [beq_iff_eq] using h
  · have h := pcWrite_of_effectOf_skipIf (i := .sneImm x nn) (s := s) (c := s.current.getV x != nn) rfl
    simpa only [bne_iff_ne, ne_eq, ite_not] using h

end Sys2Proof.Machine

/-! ## Loads, the immediate addition and the bitwise operations

Each of these instructions writes one register after the advance of fetch, with a value read from the state before it;
group 8 of the decoder is told apart by its low nibble. -/

namespace Sys2Proof.Machine

/-! ### The words of groups 6, 7 and 8 (R73, R76) -/

theorem decodeWord_group6 {w : Word} (h : fieldGroup w = 0x6#4) :
    decodeWord w = .ok (.ldImm (fieldX w) (fieldNN w)) := by
  rw [decodeWord, h]; rfl

theorem decodeWord_group7 {w : Word} (h : fieldGroup w = 0x7#4) :
    decodeWord w = .ok (.addImm (fieldX w) (fieldNN w)) := by
  rw [decodeWord, h]; rfl

theorem decodeWord_group8 {w : Word} (h : fieldGroup w = 0x8#4) : decodeWord w = decodeGroup8 w := by
  rw [decodeWord, h]; rfl

/-- A row of group 8, whose mask is the top and the low nibble: the words of the group with that low nibble. -/
theorem encoded_of_group8_fieldN {n : BitVec 4} {f : Word → Instr}
    (h : ∀ w, fieldN w = n → decodeGroup8 w = .ok (f w)) : Encoded 0xF00F#16 (wordXYN 0x8#4 0 0 n) f := by
  intro w hw
  rw [and_F00F] at hw
  have hgroup := congrArg fieldGroup hw
  have hlow := congrArg fieldN hw
  rw [fieldGroup_wordXYN, fieldGroup_wordXYN] at hgroup
  rw [fieldN_wordXYN, fieldN_wordXYN] at hlow
  rw [decodeWord_group8 hgroup, h w hlow]

theorem decodeGroup8_N0 {w : Word} (h : fieldN w = 0x0#4) :
    decodeGroup8 w = .ok (.ldReg (fieldX w) (fieldY w)) := by
  rw [decodeGroup8, h]; rfl

theorem decodeGroup8_N1 {w : Word} (h : fieldN w = 0x1#4) :
    decodeGroup8 w = .ok (.orReg (fieldX w) (fieldY w)) := by
  rw [decodeGroup8, h]; rfl

theorem decodeGroup8_N2 {w : Word} (h : fieldN w = 0x2#4) :
    decodeGroup8 w = .ok (.andReg (fieldX w) (fieldY w)) := by
  rw [decodeGroup8, h]; rfl

theorem decodeGroup8_N3 {w : Word} (h : fieldN w = 0x3#4) :
    decodeGroup8 w = .ok (.xorReg (fieldX w) (fieldY w)) := by
  rw [decodeGroup8, h]; rfl

/-! ### Instructions that write one register -/

/-- An effect that writes one register after fetch is all such an instruction does. -/
theorem regWrite_of_effectOf_setV {i : Instr} {s : State} {x : Reg} {v : Byte}
    (h : s.effectOf i = .ok (s.fetched.setV x v)) :
    RegWrite i s (fun r => if r = x then v else s.current.getV r) := by
  have hspecial : SameSpecial s (s.retire (s.fetched.setV x v)) := ⟨rfl, rfl, rfl, rfl, rfl, rfl⟩
  have hregs : ∀ r, (s.retire (s.fetched.setV x v)).current.getV r = if r = x then v else s.current.getV r :=
    fun r => MachineState.getV_setV s.fetched x r v
  exact completes_of_effectOf_ok h ⟨rfl, hregs, hspecial, rfl, fun _ => rfl, sameScheduler_retire s _⟩

/-- Settles O25: groups 6 and 7 and row 0 of group 8, each writing Vx alone; the machine's sum is the exact one
truncated to a byte. -/
theorem loadsAndAddImmediate : Obligations.LoadsAndAddImmediate := by
  refine ⟨encoded_of_fieldGroup fun _ => decodeWord_group6, encoded_of_fieldGroup fun _ => decodeWord_group7,
    encoded_of_group8_fieldN fun _ => decodeGroup8_N0, fun x y nn s => ⟨?_, ?_, ?_⟩⟩
  · exact regWrite_of_effectOf_setV rfl
  · rw [← BitVec.add_def]
    exact regWrite_of_effectOf_setV rfl
  · exact regWrite_of_effectOf_setV rfl

/-- Settles O26: rows 1 to 3 of group 8, each writing to Vx alone the bitwise result of the operands that fetch left as
they were. -/
theorem logicLeavesVF : Obligations.LogicLeavesVF := by
  refine ⟨encoded_of_group8_fieldN fun _ => decodeGroup8_N1, encoded_of_group8_fieldN fun _ => decodeGroup8_N2,
    encoded_of_group8_fieldN fun _ => decodeGroup8_N3, fun x y s => ⟨?_, ?_, ?_⟩⟩
  · exact regWrite_of_effectOf_setV rfl
  · exact regWrite_of_effectOf_setV rfl
  · exact regWrite_of_effectOf_setV rfl

end Sys2Proof.Machine

/-! ## The index register

Group A loads it; an instruction whose effect is a new I after the advance of fetch writes nothing else. -/

namespace Sys2Proof.Machine

theorem decodeWord_groupA {w : Word} (h : fieldGroup w = 0xA#4) : decodeWord w = .ok (.ldI (fieldNNN w)) := by
  rw [decodeWord, h]; rfl

/-- An effect that sets I after fetch is all such an instruction does. -/
theorem indexWrite_of_effectOf_setI {i : Instr} {s : State} {v : Word} (h : s.effectOf i = .ok (s.fetched.setI v)) :
    IndexWrite i s v := by
  have hregs : SameRegs s (s.retire (s.fetched.setI v)) := fun r => MachineState.getV_setI s.fetched r v
  have hmem : SameMemory s (s.retire (s.fetched.setI v)) := fun _ => rfl
  exact completes_of_effectOf_ok h
    ⟨rfl, rfl, hregs, rfl, rfl, rfl, rfl, rfl, rfl, hmem, sameScheduler_retire s _⟩

/-- Settles O31: group A is LD I, and its effect sets I to the zero-extended address. -/
theorem loadIndex : Obligations.LoadIndex := by
  refine ⟨encoded_of_fieldGroup fun _ => decodeWord_groupA, fun nnn s => ?_⟩
  rw [← addrWord_eq_ofNat]
  exact indexWrite_of_effectOf_setI rfl

end Sys2Proof.Machine

/-! ## Keys and timers

The timer transfers and the wait for a key are words of group F, told apart by their low byte; the devices' own
operations are known counter by counter from the laws of the key table. -/

namespace Sys2Proof.Machine

/-! ### The words of group F (R73, R76) -/

theorem decodeWord_groupF {w : Word} (h : fieldGroup w = 0xF#4) : decodeWord w = decodeGroupF w := by
  rw [decodeWord, h]; rfl

/-- A row of group F, whose mask is the top nibble and the low byte: the words of the group with that low byte. -/
theorem encoded_of_groupF_fieldNN {nn : Byte} {f : Word → Instr}
    (h : ∀ w, fieldNN w = nn → decodeGroupF w = .ok (f w)) : Encoded 0xF0FF#16 (wordXNN 0xF#4 0 nn) f := by
  intro w hw
  rw [and_F0FF] at hw
  have hgroup := congrArg fieldGroup hw
  have hlow := congrArg fieldNN hw
  rw [fieldGroup_wordXNN, fieldGroup_wordXNN] at hgroup
  rw [fieldNN_wordXNN, fieldNN_wordXNN] at hlow
  rw [decodeWord_groupF hgroup, h w hlow]

theorem decodeGroupF_NN07 {w : Word} (h : fieldNN w = 0x07#8) : decodeGroupF w = .ok (.ldVxDT (fieldX w)) := by
  rw [decodeGroupF, h]; rfl

theorem decodeGroupF_NN0A {w : Word} (h : fieldNN w = 0x0A#8) : decodeGroupF w = .ok (.ldVxK (fieldX w)) := by
  rw [decodeGroupF, h]; rfl

theorem decodeGroupF_NN15 {w : Word} (h : fieldNN w = 0x15#8) : decodeGroupF w = .ok (.ldDTVx (fieldX w)) := by
  rw [decodeGroupF, h]; rfl

theorem decodeGroupF_NN18 {w : Word} (h : fieldNN w = 0x18#8) : decodeGroupF w = .ok (.ldSTVx (fieldX w)) := by
  rw [decodeGroupF, h]; rfl

/-! ### The wait for a key (R207) -/

/-- Going back undoes the advance of fetch. -/
theorem MachineState.retreat_advance (m : MachineState) : m.advance.retreat = m.setPc m.pc :=
  congrArg m.setPc (BitVec.add_sub_cancel m.pc 2#16)

theorem MachineState.keyActive_eq_false_iff (m : MachineState) (k : Fin 16) :
    m.keyActive k = false ↔ m.keys[k].toNat = 0 := by
  rw [← Bool.not_eq_true, keyActive_iff, Nat.pos_iff_ne_zero, not_not]

theorem MachineState.waitKey_of_lowestActive_some {m : MachineState} {k : Fin 16} (x : Reg)
    (h : m.lowestActive = some k) : m.waitKey x = m.setV x (BitVec.ofNat 8 k.val) := by
  rw [waitKey, h]

theorem MachineState.waitKey_of_lowestActive_none {m : MachineState} (x : Reg) (h : m.lowestActive = none) :
    m.waitKey x = m.retreat := by
  rw [waitKey, h]

/-- Fetch leaves the keys as they are, so that the wait finds the keys of the state before it. -/
theorem State.fetched_lowestActive (s : State) : s.fetched.lowestActive = s.current.lowestActive := rfl

/-- With an active key, LD Vx, K writes the lowest one to Vx. -/
theorem effectOf_ldVxK_of_some {s : State} {k : Fin 16} (x : Reg) (h : s.current.lowestActive = some k) :
    s.effectOf (.ldVxK x) = .ok (s.fetched.setV x (BitVec.ofNat 8 k.val)) :=
  congrArg Except.ok (MachineState.waitKey_of_lowestActive_some x (s.fetched_lowestActive.trans h))

/-- With no active key, LD Vx, K leaves `pc` at itself. -/
theorem effectOf_ldVxK_of_none {s : State} (x : Reg) (h : s.current.lowestActive = none) :
    s.effectOf (.ldVxK x) = .ok (s.current.setPc s.current.pc) := by
  rw [← MachineState.retreat_advance]
  exact congrArg Except.ok (MachineState.waitKey_of_lowestActive_none x (s.fetched_lowestActive.trans h))

/-- Settles O40: the lowest active key is the one below which every counter is 0; with none, going back cancels the
advance of fetch. -/
theorem waitForKey : Obligations.WaitForKey := by
  refine ⟨encoded_of_groupF_fieldNN fun _ => decodeGroupF_NN0A, fun x s => ⟨fun k hk hlow => ?_, fun hnone => ?_⟩⟩
  · have hactive := (s.current.keyActive_iff k).mpr hk
    have hbelow : ∀ j, j < k → s.current.keyActive j = false :=
      fun j hj => (s.current.keyActive_eq_false_iff j).mpr (hlow j hj)
    exact regWrite_of_effectOf_setV (effectOf_ldVxK_of_some x (MachineState.lowestActive_eq_some hactive hbelow))
  · have hall : ∀ j, s.current.keyActive j = false := fun j => (s.current.keyActive_eq_false_iff j).mpr (hnone j)
    exact pcWrite_of_effectOf_setPc (effectOf_ldVxK_of_none x (MachineState.lowestActive_eq_none hall))

/-! ### The devices' operations (R201, R202, R210) -/

theorem MachineState.toNat_keys_pressKey (m : MachineState) (k j : Fin 16) :
    (m.pressKey k).keys[j].toNat = if j = k then 2 else 0 := by
  rw [keys_pressKey, apply_ite BitVec.toNat]; rfl

theorem MachineState.toNat_keys_keyDecay (m : MachineState) (j : Fin 16) :
    m.keyDecay.keys[j].toNat = m.keys[j].toNat - 1 := by
  rw [keys_keyDecay, toNat_decayed]

/-- Settles O41: a press leaves the counters 2 and 0, and each decay, and each tick of DT, is a saturating
subtraction of 1. -/
theorem deviceOperations : Obligations.DeviceOperations := by
  refine fun m k => ⟨m.toNat_keys_pressKey k, m.toNat_keys_keyDecay, fun j => ?_, fun j => ?_, ?_, rfl, rfl, rfl⟩
  · rw [MachineState.toNat_keys_keyDecay, MachineState.toNat_keys_pressKey]
    split
    case isTrue h => exact iff_of_true Nat.one_pos h
    case isFalse h => exact iff_of_false (Nat.lt_irrefl 0) h
  · rw [MachineState.toNat_keys_keyDecay, MachineState.toNat_keys_keyDecay, MachineState.toNat_keys_pressKey]
    split <;> rfl
  · rw [MachineState.timerTick_DT, toNat_decayed]

/-! ### The timer transfers (R206, R208, R209) -/

/-- Settles O39: three rows of group F; the first writes Vx alone, the other two one timer alone. -/
theorem timerTransfers : Obligations.TimerTransfers := by
  refine ⟨encoded_of_groupF_fieldNN fun _ => decodeGroupF_NN07, encoded_of_groupF_fieldNN fun _ => decodeGroupF_NN15,
    encoded_of_groupF_fieldNN fun _ => decodeGroupF_NN18, fun x s => ⟨?_, ?_, ?_⟩⟩
  · exact regWrite_of_effectOf_setV rfl
  · exact completes_of_effectOf_ok (m := s.fetched.setDT (s.current.getV x)) rfl
      ⟨rfl, rfl, rfl, fun _ => rfl, rfl, rfl, rfl, rfl, rfl, fun _ => rfl, sameScheduler_retire s _⟩
  · exact completes_of_effectOf_ok (m := s.fetched.setST (s.current.getV x)) rfl
      ⟨rfl, rfl, rfl, fun _ => rfl, rfl, rfl, rfl, rfl, rfl, fun _ => rfl, sameScheduler_retire s _⟩

end Sys2Proof.Machine

/-! ## Decoding and encoding

Each group of the decoder is known by its top nibble, and each row of the secondary groups 8, E and F by its low nibble
or byte; the opcode map's rows, the two round trips of the encoder and the illegal words follow row by row. -/

namespace Sys2Proof.Machine

/-! ### The remaining groups (R73 to R76) -/

theorem decodeWord_group0 {w : Word} (h : fieldGroup w = 0x0#4) : decodeWord w = .ok (decodeGroup0 w) := by
  rw [decodeWord, h]; rfl

theorem decodeWord_group2 {w : Word} (h : fieldGroup w = 0x2#4) : decodeWord w = .ok (.call (fieldNNN w)) := by
  rw [decodeWord, h]; rfl

theorem decodeWord_group5 {w : Word} (h : fieldGroup w = 0x5#4) :
    decodeWord w = .ok (.seReg (fieldX w) (fieldY w)) := by
  rw [decodeWord, h]; rfl

theorem decodeWord_group9 {w : Word} (h : fieldGroup w = 0x9#4) :
    decodeWord w = .ok (.sneReg (fieldX w) (fieldY w)) := by
  rw [decodeWord, h]; rfl

theorem decodeWord_groupB {w : Word} (h : fieldGroup w = 0xB#4) : decodeWord w = .ok (.jpV0 (fieldNNN w)) := by
  rw [decodeWord, h]; rfl

theorem decodeWord_groupC {w : Word} (h : fieldGroup w = 0xC#4) :
    decodeWord w = .ok (.rnd (fieldX w) (fieldNN w)) := by
  rw [decodeWord, h]; rfl

theorem decodeWord_groupD {w : Word} (h : fieldGroup w = 0xD#4) :
    decodeWord w = .ok (.drw (fieldX w) (fieldY w) (fieldN w).toFin) := by
  rw [decodeWord, h]; rfl

theorem decodeWord_groupE {w : Word} (h : fieldGroup w = 0xE#4) : decodeWord w = decodeGroupE w := by
  rw [decodeWord, h]; rfl

theorem decodeGroup0_sys {w : Word} (hcls : w ≠ 0x00E0#16) (hret : w ≠ 0x00EE#16) :
    decodeGroup0 w = .sys (fieldNNN w) := by
  rw [decodeGroup0, if_neg hcls, if_neg hret]

theorem decodeGroup8_N4 {w : Word} (h : fieldN w = 0x4#4) :
    decodeGroup8 w = .ok (.addReg (fieldX w) (fieldY w)) := by
  rw [decodeGroup8, h]; rfl

theorem decodeGroup8_N5 {w : Word} (h : fieldN w = 0x5#4) :
    decodeGroup8 w = .ok (.sub (fieldX w) (fieldY w)) := by
  rw [decodeGroup8, h]; rfl

theorem decodeGroup8_N6 {w : Word} (h : fieldN w = 0x6#4) :
    decodeGroup8 w = .ok (.shr (fieldX w) (fieldY w)) := by
  rw [decodeGroup8, h]; rfl

theorem decodeGroup8_N7 {w : Word} (h : fieldN w = 0x7#4) :
    decodeGroup8 w = .ok (.subn (fieldX w) (fieldY w)) := by
  rw [decodeGroup8, h]; rfl

theorem decodeGroup8_NE {w : Word} (h : fieldN w = 0xE#4) :
    decodeGroup8 w = .ok (.shl (fieldX w) (fieldY w)) := by
  rw [decodeGroup8, h]; rfl

theorem decodeGroupE_NN9E {w : Word} (h : fieldNN w = 0x9E#8) : decodeGroupE w = .ok (.skp (fieldX w)) := by
  rw [decodeGroupE, h]; rfl

theorem decodeGroupE_NNA1 {w : Word} (h : fieldNN w = 0xA1#8) : decodeGroupE w = .ok (.sknp (fieldX w)) := by
  rw [decodeGroupE, h]; rfl

theorem decodeGroupF_NN1E {w : Word} (h : fieldNN w = 0x1E#8) : decodeGroupF w = .ok (.addI (fieldX w)) := by
  rw [decodeGroupF, h]; rfl

theorem decodeGroupF_NN29 {w : Word} (h : fieldNN w = 0x29#8) : decodeGroupF w = .ok (.ldF (fieldX w)) := by
  rw [decodeGroupF, h]; rfl

theorem decodeGroupF_NN33 {w : Word} (h : fieldNN w = 0x33#8) : decodeGroupF w = .ok (.ldB (fieldX w)) := by
  rw [decodeGroupF, h]; rfl

theorem decodeGroupF_NN55 {w : Word} (h : fieldNN w = 0x55#8) : decodeGroupF w = .ok (.ldMemVx (fieldX w)) := by
  rw [decodeGroupF, h]; rfl

theorem decodeGroupF_NN65 {w : Word} (h : fieldNN w = 0x65#8) : decodeGroupF w = .ok (.ldVxMem (fieldX w)) := by
  rw [decodeGroupF, h]; rfl

/-! ### The rows of the opcode map (R76) -/

/-- A row whose mask is the top nibble and the low byte: the words of the group `g`, decoded by `d`, with that low
byte. -/
theorem encoded_of_fieldGroup_fieldNN {g : BitVec 4} {nn : Byte} {d : Word → Except Reject Instr} {f : Word → Instr}
    (hd : ∀ {w}, fieldGroup w = g → decodeWord w = d w) (hf : ∀ {w}, fieldNN w = nn → d w = .ok (f w)) :
    Encoded 0xF0FF#16 (wordXNN g 0 nn) f := by
  intro w hw
  rw [and_F0FF] at hw
  have hgroup := congrArg fieldGroup hw
  have hlow := congrArg fieldNN hw
  rw [fieldGroup_wordXNN, fieldGroup_wordXNN] at hgroup
  rw [fieldNN_wordXNN, fieldNN_wordXNN] at hlow
  rw [hd hgroup, hf hlow]

/-- The row of SYS: the words of group 0 but those of CLS and RET (R74). -/
theorem decodeWord_sys {w : Word} (h : w &&& 0xF000#16 = 0x0000#16) (hcls : w ≠ 0x00E0#16) (hret : w ≠ 0x00EE#16) :
    decodeWord w = .ok (.sys (fieldNNN w)) := by
  rw [and_F000] at h
  have hgroup := congrArg fieldGroup h
  rw [fieldGroup_wordNNN] at hgroup
  rw [decodeWord_group0 hgroup, decodeGroup0_sys hcls hret]

/-- Settles O2: one row after another, each by its group and its secondary value. -/
theorem opcodeMapRowsDecode : Obligations.OpcodeMapRowsDecode :=
  ⟨encoded_of_decodeWord rfl,
    encoded_of_decodeWord rfl,
    fun _ => decodeWord_sys,
    encoded_of_fieldGroup fun _ => decodeWord_group1,
    encoded_of_fieldGroup fun _ => decodeWord_group2,
    encoded_of_fieldGroup fun _ => decodeWord_group3,
    encoded_of_fieldGroup fun _ => decodeWord_group4,
    encoded_of_fieldGroup fun _ => decodeWord_group5,
    encoded_of_fieldGroup fun _ => decodeWord_group6,
    encoded_of_fieldGroup fun _ => decodeWord_group7,
    encoded_of_group8_fieldN fun _ => decodeGroup8_N0,
    encoded_of_group8_fieldN fun _ => decodeGroup8_N1,
    encoded_of_group8_fieldN fun _ => decodeGroup8_N2,
    encoded_of_group8_fieldN fun _ => decodeGroup8_N3,
    encoded_of_group8_fieldN fun _ => decodeGroup8_N4,
    encoded_of_group8_fieldN fun _ => decodeGroup8_N5,
    encoded_of_group8_fieldN fun _ => decodeGroup8_N6,
    encoded_of_group8_fieldN fun _ => decodeGroup8_N7,
    encoded_of_group8_fieldN fun _ => decodeGroup8_NE,
    encoded_of_fieldGroup fun _ => decodeWord_group9,
    encoded_of_fieldGroup fun _ => decodeWord_groupA,
    encoded_of_fieldGroup fun _ => decodeWord_groupB,
    encoded_of_fieldGroup fun _ => decodeWord_groupC,
    encoded_of_fieldGroup fun _ => decodeWord_groupD,
    encoded_of_fieldGroup_fieldNN decodeWord_groupE decodeGroupE_NN9E,
    encoded_of_fieldGroup_fieldNN decodeWord_groupE decodeGroupE_NNA1,
    encoded_of_groupF_fieldNN fun _ => decodeGroupF_NN07,
    encoded_of_groupF_fieldNN fun _ => decodeGroupF_NN0A,
    encoded_of_groupF_fieldNN fun _ => decodeGroupF_NN15,
    encoded_of_groupF_fieldNN fun _ => decodeGroupF_NN18,
    encoded_of_groupF_fieldNN fun _ => decodeGroupF_NN1E,
    encoded_of_groupF_fieldNN fun _ => decodeGroupF_NN29,
    encoded_of_groupF_fieldNN fun _ => decodeGroupF_NN33,
    encoded_of_groupF_fieldNN fun _ => decodeGroupF_NN55,
    encoded_of_groupF_fieldNN fun _ => decodeGroupF_NN65⟩

/-- Settles O1: the decoder run on each word. -/
theorem specWordsDecode : Obligations.SpecWordsDecode := by
  exact ⟨rfl, rfl, rfl, rfl, rfl, rfl, rfl, rfl, rfl, rfl, rfl, rfl, rfl⟩

/-! ### From an instruction to its word and back (R76, R81) -/

/-- A word of the layout gggg nnnnnnnnnnnn decodes as its group does with the address it was built from. -/
theorem decodeWord_wordNNN {g : BitVec 4} {f : Addr12 → Instr}
    (h : ∀ {w}, fieldGroup w = g → decodeWord w = .ok (f (fieldNNN w))) (a : Addr12) :
    decodeWord (wordNNN g a) = .ok (f a) := by
  rw [h (fieldGroup_wordNNN g a), fieldNNN_wordNNN]

theorem decodeWord_wordXNN {g : BitVec 4} {f : Reg → Byte → Instr}
    (h : ∀ {w}, fieldGroup w = g → decodeWord w = .ok (f (fieldX w) (fieldNN w))) (x : Reg) (nn : Byte) :
    decodeWord (wordXNN g x nn) = .ok (f x nn) := by
  rw [h (fieldGroup_wordXNN g x nn), fieldX_wordXNN, fieldNN_wordXNN]

theorem decodeWord_wordXYN {g : BitVec 4} {f : Reg → Reg → Instr}
    (h : ∀ {w}, fieldGroup w = g → decodeWord w = .ok (f (fieldX w) (fieldY w))) (x y : Reg) (n : BitVec 4) :
    decodeWord (wordXYN g x y n) = .ok (f x y) := by
  rw [h (fieldGroup_wordXYN g x y n), fieldX_wordXYN, fieldY_wordXYN]

theorem decodeWord_wordXYN_group8 {n : BitVec 4} {f : Reg → Reg → Instr}
    (h : ∀ {w}, fieldN w = n → decodeGroup8 w = .ok (f (fieldX w) (fieldY w))) (x y : Reg) :
    decodeWord (wordXYN 0x8#4 x y n) = .ok (f x y) := by
  rw [decodeWord_group8 (fieldGroup_wordXYN _ x y n), h (fieldN_wordXYN _ x y n), fieldX_wordXYN, fieldY_wordXYN]

/-- As `decodeWord_wordXNN`, in a group decoded by `d`, which the low byte selects in. -/
theorem decodeWord_wordXNN_low {g : BitVec 4} {nn : Byte} {d : Word → Except Reject Instr} {f : Reg → Instr}
    (hd : ∀ {w}, fieldGroup w = g → decodeWord w = d w) (hf : ∀ {w}, fieldNN w = nn → d w = .ok (f (fieldX w)))
    (x : Reg) : decodeWord (wordXNN g x nn) = .ok (f x) := by
  rw [hd (fieldGroup_wordXNN _ x nn), hf (fieldNN_wordXNN _ x nn), fieldX_wordXNN]

/-- SYS to any address but the two that are CLS and RET. -/
theorem decodeWord_wordNNN_sys {a : Addr12} (h : a.sysTarget = true) :
    decodeWord (wordNNN 0x0#4 a) = .ok (.sys a) := by
  simp only [Addr12.sysTarget, Bool.and_eq_true, bne_iff_ne, ne_eq] at h
  obtain ⟨hcls, hret⟩ := h
  have haddr : ∀ b, wordNNN 0x0#4 a = wordNNN 0x0#4 b → a = b := fun b hb => by
    simpa only [fieldNNN_wordNNN] using congrArg fieldNNN hb
  rw [decodeWord_group0 (fieldGroup_wordNNN _ a), decodeGroup0_sys (fun hw => hcls (haddr 0x0E0#12 hw))
    (fun hw => hret (haddr 0x0EE#12 hw)), fieldNNN_wordNNN]

theorem decodeWord_wordXYN_drw (x y : Reg) (n : Fin 16) :
    decodeWord (wordXYN 0xD#4 x y (BitVec.ofNat 4 n.val)) = .ok (.drw x y n) := by
  have hn : (BitVec.ofNat 4 n.val).toFin = n := Fin.ext (Nat.mod_eq_of_lt n.isLt)
  rw [decodeWord_groupD (fieldGroup_wordXYN _ x y _), fieldX_wordXYN, fieldY_wordXYN, fieldN_wordXYN, hn]

/-- The word of a well-formed instruction decodes to it: by its layout and its row. -/
theorem decodeWord_encode {i : Instr} (h : i.wf = true) : decodeWord (encode i) = .ok i := by
  cases i with
  | cls => rfl
  | ret => rfl
  | sys a => exact decodeWord_wordNNN_sys h
  | jp a => exact decodeWord_wordNNN decodeWord_group1 a
  | call a => exact decodeWord_wordNNN decodeWord_group2 a
  | seImm x nn => exact decodeWord_wordXNN decodeWord_group3 x nn
  | sneImm x nn => exact decodeWord_wordXNN decodeWord_group4 x nn
  | seReg x y => exact decodeWord_wordXYN decodeWord_group5 x y _
  | ldImm x nn => exact decodeWord_wordXNN decodeWord_group6 x nn
  | addImm x nn => exact decodeWord_wordXNN decodeWord_group7 x nn
  | ldReg x y => exact decodeWord_wordXYN_group8 decodeGroup8_N0 x y
  | orReg x y => exact decodeWord_wordXYN_group8 decodeGroup8_N1 x y
  | andReg x y => exact decodeWord_wordXYN_group8 decodeGroup8_N2 x y
  | xorReg x y => exact decodeWord_wordXYN_group8 decodeGroup8_N3 x y
  | addReg x y => exact decodeWord_wordXYN_group8 decodeGroup8_N4 x y
  | sub x y => exact decodeWord_wordXYN_group8 decodeGroup8_N5 x y
  | shr x y => exact decodeWord_wordXYN_group8 decodeGroup8_N6 x y
  | subn x y => exact decodeWord_wordXYN_group8 decodeGroup8_N7 x y
  | shl x y => exact decodeWord_wordXYN_group8 decodeGroup8_NE x y
  | sneReg x y => exact decodeWord_wordXYN decodeWord_group9 x y _
  | ldI a => exact decodeWord_wordNNN decodeWord_groupA a
  | jpV0 a => exact decodeWord_wordNNN decodeWord_groupB a
  | rnd x nn => exact decodeWord_wordXNN decodeWord_groupC x nn
  | drw x y n => exact decodeWord_wordXYN_drw x y n
  | skp x => exact decodeWord_wordXNN_low decodeWord_groupE decodeGroupE_NN9E x
  | sknp x => exact decodeWord_wordXNN_low decodeWord_groupE decodeGroupE_NNA1 x
  | ldVxDT x => exact decodeWord_wordXNN_low decodeWord_groupF decodeGroupF_NN07 x
  | ldVxK x => exact decodeWord_wordXNN_low decodeWord_groupF decodeGroupF_NN0A x
  | ldDTVx x => exact decodeWord_wordXNN_low decodeWord_groupF decodeGroupF_NN15 x
  | ldSTVx x => exact decodeWord_wordXNN_low decodeWord_groupF decodeGroupF_NN18 x
  | addI x => exact decodeWord_wordXNN_low decodeWord_groupF decodeGroupF_NN1E x
  | ldF x => exact decodeWord_wordXNN_low decodeWord_groupF decodeGroupF_NN29 x
  | ldB x => exact decodeWord_wordXNN_low decodeWord_groupF decodeGroupF_NN33 x
  | ldMemVx x => exact decodeWord_wordXNN_low decodeWord_groupF decodeGroupF_NN55 x
  | ldVxMem x => exact decodeWord_wordXNN_low decodeWord_groupF decodeGroupF_NN65 x

/-- Settles O3: the bytes of the word are the word, and the word decodes to its instruction. -/
theorem decodeOfEncode : Obligations.DecodeOfEncode := by
  intro i rest h
  rw [encodeBytes, decode_bytesOfWord, decodeWord_encode h]

/-! ### From a word to its instruction and back (R75, R81) -/

theorem wordNNN_of_fieldGroup {w : Word} {g : BitVec 4} (h : fieldGroup w = g) : wordNNN g (fieldNNN w) = w := by
  rw [← h, ← word_eq_wordNNN]

theorem wordXNN_of_fieldGroup {w : Word} {g : BitVec 4} (h : fieldGroup w = g) :
    wordXNN g (fieldX w) (fieldNN w) = w := by
  rw [← h, ← word_eq_wordXNN]

theorem wordXYN_of_fieldGroup {w : Word} {g : BitVec 4} (h : fieldGroup w = g) :
    wordXYN g (fieldX w) (fieldY w) (fieldN w) = w := by
  rw [← h, ← word_eq_wordXYN]

theorem wordXNN_of_fields {w : Word} {g : BitVec 4} {nn : Byte} (hg : fieldGroup w = g) (hn : fieldNN w = nn) :
    wordXNN g (fieldX w) nn = w := by
  rw [← hn, wordXNN_of_fieldGroup hg]

theorem wordXYN_of_fields {w : Word} {g n : BitVec 4} (hg : fieldGroup w = g) (hn : fieldN w = n) :
    wordXYN g (fieldX w) (fieldY w) n = w := by
  rw [← hn, wordXYN_of_fieldGroup hg]

/-- Clearing the low nibble clears the field N alone. -/
theorem and_FFF0 (w : Word) : w &&& 0xFFF0#16 = wordXYN (fieldGroup w) (fieldX w) (fieldY w) 0#4 := by
  have hreg : ∀ r : Reg, regBits r &&& regBits 15 = regBits r := fun r => and_F _
  conv => lhs; rw [word_eq_wordXYN w, show 0xFFF0#16 = wordXYN 0xF#4 15 15 0x0#4 from rfl, wordXYN_and]
  rw [and_F, hreg, hreg, BitVec.and_zero, wordXYN, wordXNN]

theorem encode_decodeGroup0 {w : Word} (h : fieldGroup w = 0x0#4) :
    (decodeGroup0 w).wf = true ∧ encode (decodeGroup0 w) = w := by
  by_cases hcls : w = 0x00E0#16
  · subst hcls; exact ⟨rfl, rfl⟩
  by_cases hret : w = 0x00EE#16
  · subst hret; exact ⟨rfl, rfl⟩
  have hw : wordNNN 0x0#4 (fieldNNN w) = w := wordNNN_of_fieldGroup h
  rw [decodeGroup0_sys hcls hret]
  refine ⟨?_, hw⟩
  simp only [Instr.wf, Addr12.sysTarget, Bool.and_eq_true, bne_iff_ne, ne_eq]
  exact ⟨fun ha => hcls (by rw [← hw, ha]; rfl), fun ha => hret (by rw [← hw, ha]; rfl)⟩

theorem encode_of_decodeGroup8 {w : Word} {i : Instr} (hg : fieldGroup w = 0x8#4) (h : decodeGroup8 w = .ok i) :
    i.wf = true ∧ encode i = w := by
  unfold decodeGroup8 at h
  split at h
  case h_10 => cases h
  all_goals
    rename_i hn
    cases h
    exact ⟨rfl, wordXYN_of_fields hg (BitVec.eq_of_toNat_eq hn)⟩

theorem encode_of_decodeGroupE {w : Word} {i : Instr} (hg : fieldGroup w = 0xE#4) (h : decodeGroupE w = .ok i) :
    i.wf = true ∧ encode i = w := by
  unfold decodeGroupE at h
  repeat' split at h
  all_goals cases h
  all_goals exact ⟨rfl, wordXNN_of_fields hg ‹_›⟩

theorem encode_of_decodeGroupF {w : Word} {i : Instr} (hg : fieldGroup w = 0xF#4) (h : decodeGroupF w = .ok i) :
    i.wf = true ∧ encode i = w := by
  unfold decodeGroupF at h
  repeat' split at h
  all_goals cases h
  all_goals exact ⟨rfl, wordXNN_of_fields hg ‹_›⟩

/-- In groups 5 and 9 the canonical word is the word with its low nibble cleared. -/
theorem wordXYN_eq_and_FFF0 {w : Word} {g : BitVec 4} (h : fieldGroup w = g) :
    wordXYN g (fieldX w) (fieldY w) 0#4 = w &&& 0xFFF0#16 := by
  rw [and_FFF0, h]

/-- The sixteen groups. -/
theorem bitVec4_cases (g : BitVec 4) :
    g = 0x0#4 ∨ g = 0x1#4 ∨ g = 0x2#4 ∨ g = 0x3#4 ∨ g = 0x4#4 ∨ g = 0x5#4 ∨ g = 0x6#4 ∨ g = 0x7#4 ∨
    g = 0x8#4 ∨ g = 0x9#4 ∨ g = 0xA#4 ∨ g = 0xB#4 ∨ g = 0xC#4 ∨ g = 0xD#4 ∨ g = 0xE#4 ∨ g = 0xF#4 := by
  revert g; decide

/-- Outside groups 5 and 9, which keep no trace of their low nibble, a word that decodes is its instruction's. -/
theorem encode_of_decodeWord {w : Word} {i : Instr} (h : decodeWord w = .ok i) (h5 : fieldGroup w ≠ 0x5#4)
    (h9 : fieldGroup w ≠ 0x9#4) : i.wf = true ∧ encode i = w := by
  rcases bitVec4_cases (fieldGroup w) with
    hg | hg | hg | hg | hg | hg | hg | hg | hg | hg | hg | hg | hg | hg | hg | hg
  · rw [decodeWord_group0 hg] at h; cases h; exact encode_decodeGroup0 hg
  · rw [decodeWord_group1 hg] at h; cases h; exact ⟨rfl, wordNNN_of_fieldGroup hg⟩
  · rw [decodeWord_group2 hg] at h; cases h; exact ⟨rfl, wordNNN_of_fieldGroup hg⟩
  · rw [decodeWord_group3 hg] at h; cases h; exact ⟨rfl, wordXNN_of_fieldGroup hg⟩
  · rw [decodeWord_group4 hg] at h; cases h; exact ⟨rfl, wordXNN_of_fieldGroup hg⟩
  · exact absurd hg h5
  · rw [decodeWord_group6 hg] at h; cases h; exact ⟨rfl, wordXNN_of_fieldGroup hg⟩
  · rw [decodeWord_group7 hg] at h; cases h; exact ⟨rfl, wordXNN_of_fieldGroup hg⟩
  · rw [decodeWord_group8 hg] at h; exact encode_of_decodeGroup8 hg h
  · exact absurd hg h9
  · rw [decodeWord_groupA hg] at h; cases h; exact ⟨rfl, wordNNN_of_fieldGroup hg⟩
  · rw [decodeWord_groupB hg] at h; cases h; exact ⟨rfl, wordNNN_of_fieldGroup hg⟩
  · rw [decodeWord_groupC hg] at h; cases h; exact ⟨rfl, wordXNN_of_fieldGroup hg⟩
  · have hn : BitVec.ofNat 4 (fieldN w).toFin.val = fieldN w := BitVec.ofNat_toNat 4 (fieldN w)
    rw [decodeWord_groupD hg] at h; cases h
    exact ⟨rfl, by rw [encode, hn, wordXYN_of_fieldGroup hg]⟩
  · rw [decodeWord_groupE hg] at h; exact encode_of_decodeGroupE hg h
  · rw [decodeWord_groupF hg] at h; exact encode_of_decodeGroupF hg h

/-- Settles O4: in groups 5 and 9 the two register fields are kept, in every other group the whole word. -/
theorem encodeOfDecode : Obligations.EncodeOfDecode := by
  intro w i h
  by_cases h5 : fieldGroup w = 0x5#4
  · rw [decodeWord_group5 h5] at h; cases h
    rw [if_pos (.inl h5)]
    exact ⟨rfl, wordXYN_eq_and_FFF0 h5⟩
  by_cases h9 : fieldGroup w = 0x9#4
  · rw [decodeWord_group9 h9] at h; cases h
    rw [if_pos (.inr h9)]
    exact ⟨rfl, wordXYN_eq_and_FFF0 h9⟩
  rw [if_neg (not_or.mpr ⟨h5, h9⟩)]
  exact encode_of_decodeWord h h5 h9

/-! ### The illegal words (R77) -/

theorem decodeGroup8_isError_iff (w : Word) :
    (∃ e, decodeGroup8 w = .error e) ↔ fieldN w ∈ [0x8#4, 0x9#4, 0xA#4, 0xB#4, 0xC#4, 0xD#4, 0xF#4] := by
  unfold decodeGroup8
  generalize fieldN w = n
  rcases bitVec4_cases n with
    rfl | rfl | rfl | rfl | rfl | rfl | rfl | rfl | rfl | rfl | rfl | rfl | rfl | rfl | rfl | rfl <;> simp

theorem decodeGroupE_isError_iff (w : Word) :
    (∃ e, decodeGroupE w = .error e) ↔ fieldNN w ∉ [0x9E#8, 0xA1#8] := by
  unfold decodeGroupE
  repeat' split
  all_goals simp [*]

theorem decodeGroupF_isError_iff (w : Word) :
    (∃ e, decodeGroupF w = .error e) ↔
      fieldNN w ∉ [0x07#8, 0x0A#8, 0x15#8, 0x18#8, 0x1E#8, 0x29#8, 0x33#8, 0x55#8, 0x65#8] := by
  unfold decodeGroupF
  repeat' split
  all_goals simp [*]

/-- Every word of the other groups is an instruction. -/
theorem decodeWord_ok_of_fieldGroup {w : Word} (h8 : fieldGroup w ≠ 0x8#4) (hE : fieldGroup w ≠ 0xE#4)
    (hF : fieldGroup w ≠ 0xF#4) : ∃ i, decodeWord w = .ok i := by
  have hg : (fieldGroup w).toNat < 16 := (fieldGroup w).isLt
  unfold decodeWord
  split
  case h_9 h => exact absurd (BitVec.eq_of_toNat_eq h) h8
  case h_15 h => exact absurd (BitVec.eq_of_toNat_eq h) hE
  case h_16 h => exact absurd (BitVec.eq_of_toNat_eq h) hF
  case h_17 =>
    simp only [imp_false] at *
    omega
  all_goals exact ⟨_, rfl⟩

/-- Settles O5: outside groups 8, E and F every word decodes; inside, the secondary value decides. -/
theorem illegalWordsExactly : Obligations.IllegalWordsExactly := by
  intro w
  by_cases h8 : fieldGroup w = 0x8#4
  · simp [decodeWord_group8 h8, decodeGroup8_isError_iff, h8]
  by_cases hE : fieldGroup w = 0xE#4
  · simp [decodeWord_groupE hE, decodeGroupE_isError_iff, hE]
  by_cases hF : fieldGroup w = 0xF#4
  · simp [decodeWord_groupF hF, decodeGroupF_isError_iff, hF]
  obtain ⟨i, hi⟩ := decodeWord_ok_of_fieldGroup h8 hE hF
  simp [hi, h8, hE, hF]

end Sys2Proof.Machine

/-! ## What an instruction can change

One inversion of the effects: an effect that answers is one of ten changes of the MachineState. What an instruction
leaves unchanged, and the invariant along a step, are read off it. -/

namespace Sys2Proof.Machine

/-- What the effect of `i` in `m` can answer: which fields it writes, and by which instructions. -/
inductive MachineState.Change (m : MachineState) (i : Instr) : MachineState → Prop
  | pc (v : Word) : Change m i (m.setPc v)
  | regs (V : Vector Byte 16) (h : ∀ r : Reg, writesReg i r = false → V[r] = m.V[r]) :
      Change m i { m.advance with V := V }
  | index (v : Word) (h : (∃ a, i = .ldI a) ∨ (∃ x, i = .addI x) ∨ ∃ x, i = .ldF x) : Change m i (m.advance.setI v)
  | call (st : Vector Word 16) (sp : Fin 17) (v : Word) (h : (∃ a, i = .call a) ∨ ∃ a, i = .sys a) :
      Change m i ((m.setStack st sp).setPc v)
  | ret (sp : Fin 17) (v : Word) (h : i = .ret) : Change m i ((m.setStack m.stack sp).setPc v)
  | delay (v : Byte) (h : ∃ x, i = .ldDTVx x) : Change m i (m.advance.setDT v)
  | sound (v : Byte) (h : ∃ x, i = .ldSTVx x) : Change m i (m.advance.setST v)
  | clear (fb : Framebuffer) (h : i = .cls) : Change m i (m.advance.setFb fb)
  | draw (fb : Framebuffer) (v : Byte) (h : ∃ x y n, i = .drw x y n) : Change m i ((m.advance.setFb fb).setV VF v)
  | store (vs : List Byte) (hr : vs = [] ∨ m.I.toNat + vs.length ≤ 0x1000)
      (h : (∃ x, i = .ldB x) ∨ ∃ x, i = .ldMemVx x) :
      Change m i (m.advance.setMemory (Memory.writeList m.memory m.I.toNat vs))

/-- A register written is a change of registers, when its instruction names it. -/
theorem MachineState.Change.setV {m : MachineState} {i : Instr} {x : Reg} (v : Byte)
    (h : writesReg i x = true) : Change m i (m.advance.setV x v) := by
  refine .regs (m.V.set x v) fun r hr => ?_
  have hne : x.val ≠ r.val := fun e => by rw [Fin.ext e, hr] at h; cases h
  exact Vector.getElem_set_ne _ _ hne

/-- Two registers written one after the other are too. -/
theorem MachineState.Change.setV_setV {m : MachineState} {i : Instr} {x y : Reg} (v w : Byte)
    (hx : writesReg i x = true) (hy : writesReg i y = true) : Change m i ((m.advance.setV x v).setV y w) := by
  refine .regs ((m.V.set x v).set y w) fun r hr => ?_
  have hnx : x.val ≠ r.val := fun e => by rw [Fin.ext e, hr] at hx; cases hx
  have hny : y.val ≠ r.val := fun e => by rw [Fin.ext e, hr] at hy; cases hy
  exact (Vector.getElem_set_ne _ _ hny).trans (Vector.getElem_set_ne _ _ hnx)

theorem MachineState.Change.skipIf (m : MachineState) (i : Instr) (c : Bool) : Change m i (m.advance.skipIf c) := by
  rw [skipIf_advance]; exact .pc _

theorem MachineState.Change.of_skipIfKey {m m' : MachineState} {i : Instr} {x : Reg}
    (h : m.advance.skipIfKey x = .ok m') : Change m i m' := by
  obtain ⟨v, rfl⟩ := skipIfKey_cases h
  exact .pc v

theorem MachineState.Change.of_skipIfNotKey {m m' : MachineState} {i : Instr} {x : Reg}
    (h : m.advance.skipIfNotKey x = .ok m') : Change m i m' := by
  obtain ⟨v, rfl⟩ := skipIfNotKey_cases h
  exact .pc v

theorem MachineState.Change.of_callTo {m m' : MachineState} {i : Instr} {a : Addr12}
    (h : (∃ a, i = .call a) ∨ ∃ a, i = .sys a) (hm : m.advance.callTo a = .ok m') : Change m i m' := by
  obtain ⟨st, sp, v, rfl⟩ := callTo_cases hm
  exact .call st sp v h

theorem MachineState.Change.of_storeBlock {m m' : MachineState} {i : Instr} {vs : List Byte}
    (h : (∃ x, i = .ldB x) ∨ ∃ x, i = .ldMemVx x) (hm : m.advance.storeBlock vs = .ok m') : Change m i m' := by
  obtain ⟨hr, rfl⟩ := storeBlock_cases hm
  exact .store vs (hr.imp_left List.length_eq_zero_iff.mp) h

theorem MachineState.Change.waitKey (m : MachineState) (x : Reg) :
    Change m (.ldVxK x) (m.advance.waitKey x) := by
  rcases waitKey_cases m.advance x with ⟨v, h⟩ | h
  · rw [h]; exact .setV v (beq_self_eq_true x)
  · rw [h, retreat_advance]; exact .pc _

/-- FX65 writes no register above Vx. -/
theorem MachineState.Change.of_loadUpTo {m m' : MachineState} {x : Reg} (h : m.advance.loadUpTo x = .ok m') :
    Change m (.ldVxMem x) m' := by
  rw [loadUpTo_cases h]
  refine .regs _ fun r hr => ?_
  have hgt : x < r := not_le.mp (of_decide_eq_false hr)
  exact (getElem_loadRegs _ _ _ r.val r.isLt).trans
    (dif_neg (by rw [Memory.length_readList]; have := Fin.lt_def.mp hgt; omega))

/-- Everything an effect that answers can change. -/
theorem State.change_of_effectOf_ok {s : State} {i : Instr} {m : MachineState} (h : s.effectOf i = .ok m) :
    s.current.Change i m := by
  cases i
  case cls => cases h; exact .clear _ rfl
  case ret =>
    obtain ⟨sp, v, rfl⟩ := MachineState.returnPopped_cases h
    exact .ret sp v rfl
  case sys a => exact .of_callTo (.inr ⟨a, rfl⟩) h
  case call a => exact .of_callTo (.inl ⟨a, rfl⟩) h
  case jp | jpV0 => cases h; exact .pc _
  case seImm | sneImm | seReg | sneReg => cases h; exact .skipIf _ _ _
  case ldImm x _ | addImm x _ | ldReg x _ | orReg x _ | andReg x _ | xorReg x _ | rnd x _ | ldVxDT x =>
    cases h; exact .setV _ (beq_self_eq_true x)
  case addReg x _ | sub x _ | subn x _ =>
    cases h; exact .setV_setV _ _ (by simp [writesReg]) (by simp [writesReg])
  case shr x _ | shl x _ =>
    cases h; exact .setV_setV _ _ (by simp [writesReg]) (by simp [writesReg])
  case ldI a => cases h; exact .index _ (.inl ⟨a, rfl⟩)
  case addI x => cases h; exact .index _ (.inr (.inl ⟨x, rfl⟩))
  case ldF x => cases h; exact .index _ (.inr (.inr ⟨x, rfl⟩))
  case drw x y n =>
    obtain ⟨fb, v, rfl⟩ := MachineState.draw_cases h
    exact .draw fb v ⟨x, y, n, rfl⟩
  case skp => exact .of_skipIfKey h
  case sknp => exact .of_skipIfNotKey h
  case ldVxK x => cases h; exact .waitKey s.current x
  case ldDTVx x => cases h; exact .delay _ ⟨x, rfl⟩
  case ldSTVx x => cases h; exact .sound _ ⟨x, rfl⟩
  case ldB x => exact .of_storeBlock (.inl ⟨x, rfl⟩) h
  case ldMemVx x => exact .of_storeBlock (.inr ⟨x, rfl⟩) h
  case ldVxMem => exact .of_loadUpTo h

/-! ### Field by field -/

section
variable {m m' : MachineState} {i : Instr}

theorem MachineState.Change.getV_eq (h : m.Change i m') (r : Reg) (hr : writesReg i r = false) :
    m'.getV r = m.getV r := by
  cases h with
  | regs V hV => exact hV r hr
  | draw fb v hi =>
    obtain ⟨x, y, n, rfl⟩ := hi
    rw [getV_setV, if_neg (by simpa only [writesReg, beq_eq_false_iff_ne] using hr)]
    rfl
  | pc | index | call | ret | delay | sound | clear | store => rfl

theorem MachineState.Change.I_of_ne (h : m.Change i m') (hne : m'.I ≠ m.I) :
    (∃ a, i = .ldI a) ∨ (∃ x, i = .addI x) ∨ ∃ x, i = .ldF x := by
  cases h with
  | index _ hi => exact hi
  | pc | regs | call | ret | delay | sound | clear | draw | store => exact absurd rfl hne

theorem MachineState.Change.stack_of_ne (h : m.Change i m') (hne : m'.stack ≠ m.stack) :
    (∃ a, i = .call a) ∨ ∃ a, i = .sys a := by
  cases h with
  | call _ _ _ hi => exact hi
  | pc | regs | index | ret | delay | sound | clear | draw | store => exact absurd rfl hne

theorem MachineState.Change.sp_of_ne (h : m.Change i m') (hne : m'.sp ≠ m.sp) :
    (∃ a, i = .call a) ∨ (∃ a, i = .sys a) ∨ i = .ret := by
  cases h with
  | call _ _ _ hi => exact hi.imp_right .inl
  | ret _ _ hi => exact .inr (.inr hi)
  | pc | regs | index | delay | sound | clear | draw | store => exact absurd rfl hne

theorem MachineState.Change.DT_of_ne (h : m.Change i m') (hne : m'.DT ≠ m.DT) : ∃ x, i = .ldDTVx x := by
  cases h with
  | delay _ hi => exact hi
  | pc | regs | index | call | ret | sound | clear | draw | store => exact absurd rfl hne

theorem MachineState.Change.ST_of_ne (h : m.Change i m') (hne : m'.ST ≠ m.ST) : ∃ x, i = .ldSTVx x := by
  cases h with
  | sound _ hi => exact hi
  | pc | regs | index | call | ret | delay | clear | draw | store => exact absurd rfl hne

theorem MachineState.Change.keys_eq (h : m.Change i m') : m'.keys = m.keys := by
  cases h <;> rfl

theorem MachineState.Change.fb_of_ne (h : m.Change i m') (hne : m'.fb ≠ m.fb) :
    i = .cls ∨ ∃ x y n, i = .drw x y n := by
  cases h with
  | clear _ hi => exact .inl hi
  | draw _ _ hi => exact .inr hi
  | pc | regs | index | call | ret | delay | sound | store => exact absurd rfl hne

theorem MachineState.Change.memory_of_ne (h : m.Change i m') (hne : m'.memory ≠ m.memory) :
    (∃ x, i = .ldB x) ∨ ∃ x, i = .ldMemVx x := by
  cases h with
  | store _ _ hi => exact hi
  | pc | regs | index | call | ret | delay | sound | clear | draw => exact absurd rfl hne

/-- Every change keeps memory in canonical form: a store is in range. -/
theorem MachineState.Change.wf_memory (h : m.Change i m') (hm : Memory.wf m.memory = true) :
    Memory.wf m'.memory = true := by
  cases h with
  | store _ hr => exact Memory.wf_writeList hm hr
  | pc | regs | index | call | ret | delay | sound | clear | draw => exact hm

end

/-- What `exec` answers is the change of an effect retired, or a fault taken. -/
theorem exec_change {i : Instr} {s t : State} (h : exec i s = .next t) :
    (∃ m, s.current.Change i m ∧ t = s.retire m) ∨ ∃ f, t = s.takeFault f := by
  rcases exec_cases h with ⟨m, hm, rfl⟩ | ⟨f, -, rfl⟩
  · exact .inl ⟨m, State.change_of_effectOf_ok hm, rfl⟩
  · exact .inr ⟨f, rfl⟩

/-- Settles O42: a change leaves a register its instruction does not name, and a fault leaves all. -/
theorem onlyNamedRegistersWritten : Obligations.OnlyNamedRegistersWritten := by
  intro i s t r h hr
  rcases exec_change h with ⟨m, hm, rfl⟩ | ⟨f, rfl⟩
  · exact hm.getV_eq r hr
  · rfl

/-- Settles O43: each field by the changes that write it; a fault leaves all but the status. -/
theorem onlyListedInstructionsWrite : Obligations.OnlyListedInstructionsWrite := by
  intro i s t h
  rcases exec_change h with ⟨m, hm, rfl⟩ | ⟨f, rfl⟩
  · exact ⟨hm.I_of_ne, hm.stack_of_ne, hm.sp_of_ne, hm.DT_of_ne, hm.ST_of_ne, hm.keys_eq, hm.fb_of_ne,
      hm.memory_of_ne, rfl, rfl, rfl, rfl, rfl, rfl⟩
  · exact ⟨absurd rfl, absurd rfl, absurd rfl, absurd rfl, absurd rfl, rfl, absurd rfl, absurd rfl,
      rfl, rfl, rfl, rfl, rfl, rfl⟩

end Sys2Proof.Machine

/-! ## The invariant

Canonical memory and a legal key table hold at power-on, and every instruction, device event and restore keeps them; a
push keeps the history within its capacity. -/

namespace Sys2Proof.Machine

/-! ### The key table (R203) -/

theorem keysOk_replicate : KeysOk (Vector.replicate 16 0#8) := by
  have hzero : ∀ k : Fin 16, (Vector.replicate 16 0#8)[k] = 0#8 := fun k => Vector.getElem_replicate _
  exact ⟨fun k => by rw [hzero k]; decide, fun j _ hj => absurd (hzero j) hj⟩

/-- After a press only its key's counter is not 0. -/
theorem MachineState.keysOk_pressKey (m : MachineState) (k : Fin 16) : KeysOk (m.pressKey k).keys := by
  have honly : ∀ j, (m.pressKey k).keys[j] ≠ 0#8 → j = k := fun j hj => by
    by_contra hne
    exact hj (by rw [keys_pressKey, if_neg hne])
  refine ⟨fun j => ?_, fun j j' hj hj' => (honly j hj).trans (honly j' hj').symm⟩
  rw [toNat_keys_pressKey]
  split <;> omega

/-- A decay lowers every counter, and makes none nonzero. -/
theorem MachineState.keysOk_keyDecay {m : MachineState} (h : KeysOk m.keys) : KeysOk m.keyDecay.keys := by
  obtain ⟨hle, huniq⟩ := h
  have hne : ∀ j : Fin 16, m.keyDecay.keys[j] ≠ 0#8 → m.keys[j] ≠ 0#8 := fun j hj h0 => by
    rw [keys_keyDecay, h0] at hj
    exact hj rfl
  refine ⟨fun j => ?_, fun j k hj hk => huniq j k (hne j hj) (hne k hk)⟩
  rw [toNat_keys_keyDecay]
  exact (Nat.sub_le _ _).trans (hle j)

/-! ### Power-on (R260 to R263) -/

/-- The font's block lies within memory. -/
theorem fontBlock_le (font : Vector Byte 80) : fontBase + font.toList.length ≤ 0x1000 := by
  rw [Vector.length_toList, fontBase_eq]; decide

theorem Memory.wf_fontMemory (font : Vector Byte 80) :
    Memory.wf (Memory.writeList [] fontBase font.toList) = true := Memory.wf_writeList rfl (.inr (fontBlock_le font))

theorem Memory.wf_initialMemory {p : Params} (h : p.rom.length ≤ romMax) : Memory.wf (initialMemory p) = true := by
  refine Memory.wf_writeList (Memory.wf_fontMemory p.font) (.inr ?_)
  rw [romMax_eq] at h
  rw [programStart_eq]; omega

theorem initialState_inv {p : Params} (h : Params.Ok p) : (initialState p).Inv :=
  ⟨Memory.wf_initialMemory h.1, keysOk_replicate⟩

/-- The beginning of a history is within its capacity. -/
theorem historyFits_of_append {cap : HistoryCapacity} {h h' : List MachineState} (hfit : HistoryFits cap (h ++ h')) :
    HistoryFits cap h := by
  cases cap with
  | unbounded => trivial
  | bounded c =>
    have hle : (h ++ h').length ≤ c := hfit
    rw [List.length_append] at hle
    exact (Nat.le_add_right _ _).trans hle

/-- A history of no snapshots is within every capacity. -/
theorem historyFits_nil (cap : HistoryCapacity) : HistoryFits cap [] := by
  cases cap
  · trivial
  · exact Nat.zero_le _

theorem State.powerOn_inv {p : Params} (h : Params.Ok p) : (State.powerOn p).Inv :=
  ⟨h, initialState_inv h, fun _ hm => absurd hm List.not_mem_nil, historyFits_nil _⟩

/-- Settles O56: the default parameters are admissible. -/
theorem resetSatisfiesInv : Obligations.ResetSatisfiesInv :=
  State.powerOn_inv ⟨Nat.zero_le _, by decide⟩

/-- Settles O60: the three cases of `load`, and the invariant at power-on. -/
theorem loadChecksProgramLength : Obligations.LoadChecksProgramLength := by
  refine fun p => ⟨fun h => if_pos h, fun h hc => ?_, fun h => ⟨?_, State.powerOn_inv h⟩⟩
  · rw [State.load, if_neg (by rw [romMax_eq]; omega), if_pos hc]
  · obtain ⟨hlen, hcap⟩ := h
    rw [State.load, if_neg (Nat.not_lt.mpr hlen), if_neg hcap]

/-! ### The history (R246) -/

/-- At a finite capacity that is reached, a push drops the oldest entry. -/
theorem pushHistory_of_full {c : Nat} {oldest : MachineState} {rest : List MachineState} (m : MachineState)
    (h : (oldest :: rest).length = c) : pushHistory (.bounded c) (oldest :: rest) m = rest ++ [m] :=
  if_pos h

/-- A push into an admissible capacity keeps the history within it. -/
theorem historyFits_pushHistory {cap : HistoryCapacity} {h : List MachineState} (m : MachineState)
    (hcap : cap ≠ .bounded 0) (hfit : HistoryFits cap h) : HistoryFits cap (pushHistory cap h m) := by
  cases cap with
  | unbounded => trivial
  | bounded c =>
    have hle : h.length ≤ c := hfit
    have hpos : c ≠ 0 := fun h0 => hcap (by rw [h0])
    change (if h.length = c then h.drop 1 ++ [m] else h ++ [m]).length ≤ c
    split
    · rw [List.length_append, List.length_drop, List.length_singleton]; omega
    · rw [List.length_append, List.length_singleton]; omega

/-- Settles O47: the three cases of a push. -/
theorem pushKeepsCapacity : Obligations.PushKeepsCapacity := by
  refine fun cap h m => ⟨pushHistory_of_room m, fun c oldest rest hcap hh hlen => ?_, historyFits_pushHistory m⟩
  subst hcap hh
  exact pushHistory_of_full m hlen

/-! ### The step -/

theorem MachineState.Change.inv {m m' : MachineState} {i : Instr} (h : m.Change i m') (hm : m.Inv) : m'.Inv := by
  obtain ⟨hwf, hkeys⟩ := hm
  exact ⟨h.wf_memory hwf, by rw [h.keys_eq]; exact hkeys⟩

theorem MachineState.timerTick_inv {m : MachineState} (h : m.Inv) : m.timerTick.Inv := h

theorem MachineState.keyDecay_inv {m : MachineState} (h : m.Inv) : m.keyDecay.Inv := by
  obtain ⟨hwf, hkeys⟩ := h
  exact ⟨by rw [keyDecay, setKeys_memory]; exact hwf, keysOk_keyDecay hkeys⟩

theorem MachineState.pressKey_inv {m : MachineState} (k : Fin 16) (h : m.Inv) : (m.pressKey k).Inv :=
  ⟨h.1, m.keysOk_pressKey k⟩

/-- Another well-formed MachineState made current. -/
theorem State.inv_with_current {s : State} {m : MachineState} (h : s.Inv) (hm : m.Inv) :
    State.Inv { s with current := m } := by
  obtain ⟨hp, -, hhist, hfit⟩ := h
  exact ⟨hp, hm, hhist, hfit⟩

/-- The most recent snapshot made current. -/
theorem State.inv_of_restore {s : State} {m : MachineState} {hist : List MachineState} (h : s.Inv)
    (hh : s.history = hist ++ [m]) : State.Inv { s with current := m, history := hist } := by
  obtain ⟨hp, -, hhist, hfit⟩ := h
  rw [hh] at hhist hfit
  exact ⟨hp, hhist m (List.mem_append_right _ (List.mem_singleton_self m)),
    fun m' hm' => hhist m' (List.mem_append_left _ hm'), historyFits_of_append hfit⟩

theorem State.onReset_inv {s : State} (h : s.Inv) : s.onReset.Inv :=
  ⟨h.1, initialState_inv h.1, fun _ hm => absurd hm List.not_mem_nil, historyFits_nil _⟩

/-- Taking the event off the channel keeps the invariant. -/
theorem State.dequeued_inv {s : State} (h : s.Inv) : s.dequeued.Inv := h

/-- The state in which `step` runs an instruction keeps the invariant. -/
theorem State.pushed_inv {s : State} (h : s.Inv) : s.pushed.Inv := by
  obtain ⟨hp, hcur, hhist, hfit⟩ := h
  refine ⟨hp, hcur, fun m hm => ?_, historyFits_pushHistory _ hp.2 hfit⟩
  rcases pushHistory_mem hm with hm | rfl
  · exact hhist m hm
  · exact hcur

/-- A retired change keeps the invariant. -/
theorem State.retire_inv {s : State} {m : MachineState} (h : s.Inv) (hm : m.Inv) : (s.retire m).Inv := by
  obtain ⟨hp, -, hhist, hfit⟩ := h
  exact ⟨hp, hm, hhist, hfit⟩

theorem State.interpStep_inv {s t : State} (h : s.Inv) (ht : s.interpStep = .next t) : t.Inv := by
  have ⟨_, hcur, _⟩ := h
  rcases interpStep_cases ht with ⟨i, m, -, hm, rfl⟩ | ⟨f, rfl⟩
  · exact retire_inv h ((change_of_effectOf_ok hm).inv hcur)
  · exact h

/-- Settles O57: each of the things a step can do keeps the invariant. -/
theorem stepKeepsInv : Obligations.StepKeepsInv := by
  intro s t h ht
  have hd := State.dequeued_inv h
  have ⟨_, hcur, _⟩ := h
  rcases step_cases ht with ⟨-, rfl⟩ | ⟨-, -, hi⟩ | ⟨-, -, hist, m, hh, rfl⟩ | ⟨-, rfl⟩ | ⟨-, -, rfl⟩ | ⟨-, -, rfl⟩ |
    ⟨-, k, -, rfl⟩ | ⟨-, _, -, rfl⟩ | ⟨-, -, rfl⟩ | ⟨-, _, -, rfl⟩ | ⟨-, -, rfl⟩ | ⟨-, -, rfl⟩
  · exact hd
  · exact State.interpStep_inv (State.pushed_inv h) hi
  · exact State.inv_of_restore hd hh
  · exact hd
  · exact State.inv_with_current hd (MachineState.timerTick_inv hcur)
  · exact State.inv_with_current hd (MachineState.keyDecay_inv hcur)
  · exact State.inv_with_current hd (MachineState.pressKey_inv k hcur)
  · exact hd
  · exact State.onReset_inv hd
  · exact hd
  · exact hd
  · exact hd

end Sys2Proof.Machine

/-! ## The step and its faults

An interpreter step always answers; where it faults, the state pushed before it stays but for the status. -/

namespace Sys2Proof.Machine

/-! ### Every step answers -/

theorem State.handle_next (s : State) (e : Event) : ∃ t, s.handle e = .next t := by
  cases e
  case cpuTick r =>
    rw [handle, onCpuTick]
    split
    · exact ⟨_, rfl⟩
    · split
      · exact ⟨_, rfl⟩
      · exact interpStep_next _
  case stepForward r => exact interpStep_next _
  all_goals exact ⟨_, rfl⟩

theorem State.eventStep_next (s : State) (e : Event) : ∃ t, s.eventStep e = .next t := by
  by_cases h : s.status = .running
  · rw [eventStep_running h]; exact handle_next s e
  · exact ⟨s, eventStep_stopped h e⟩

/-- Settles O10: with an event its handler answers, with none the step is counted. -/
theorem everyStepAnswersNext : Obligations.EveryStepAnswersNext := by
  intro s
  cases he : s.nextEvent with
  | none => exact ⟨_, step_of_none he⟩
  | some e =>
    rw [step_of_some he]
    exact State.eventStep_next _ e

/-! ### Fetch and decoding (R72, R77) -/

/-- A list of two bytes decodes only if its word does. -/
theorem decodeWord_of_decode_pair {hi lo : Byte} {i : Instr} {rest : List Byte}
    (h : decode [hi, lo] = .ok (i, rest)) : decodeWord (wordOfBytes hi lo) = .ok i := by
  cases hd : decodeWord (wordOfBytes hi lo) with
  | error e => rw [decode, hd] at h; cases h
  | ok j => rw [decode, hd] at h; cases h; rfl

/-- Settles O7: the word fetched is that of the two bytes at `pc`. -/
theorem stepRunsDecodedInstruction : Obligations.StepRunsDecodedInstruction := by
  intro s i rest hr hpc hd
  rw [step_of_runsInstruction hr]
  exact State.interpStep_decode_ok (s := s.pushed) (MachineState.fetchWord_ok hpc) (decodeWord_of_decode_pair hd)

/-- Settles O8: of the two byte addresses the first out of range is `pc`, or the one after it. -/
theorem fetchOutOfRangeFaults : Obligations.FetchOutOfRangeFaults := by
  intro s hr hpc
  have haddr : max s.current.pc.toNat 0x1000 =
      if 0xFFF < s.current.pc.toNat then s.current.pc.toNat else s.current.pc.toNat + 1 := by
    split <;> omega
  rw [step_of_runsInstruction hr, State.interpStep_fetch_error (s := s.pushed) (MachineState.fetchWord_error hpc),
    State.takeFault_eq, State.pushed_current, if_neg (Nat.not_le.mpr hpc), haddr]

/-- Settles O9: the word fetched is rejected, and recorded as the word at `pc`. -/
theorem illegalWordFaults : Obligations.IllegalWordFaults := by
  intro s w e hr hpc hw hd
  have hfetch : s.pushed.current.fetchWord = .ok w := by rw [hw]; exact MachineState.fetchWord_ok hpc
  rw [step_of_runsInstruction hr, State.interpStep_decode_error hfetch hd, rejectFault_of_decodeWord_error hd,
    State.takeFault_eq, State.pushed_current, if_pos hpc, hw]

/-- Settles O11: a step that faults takes its fault in the pushed state. -/
theorem faultsArePrecise : Obligations.FaultsArePrecise := by
  intro s t rec h hs ht
  rcases State.interpStep_cases (interpStep_of_step_faulted h hs ht) with ⟨i, m, -, -, rfl⟩ | ⟨f, rfl⟩
  · rw [State.retire_status, State.pushed_status, hs] at ht; cases ht
  · rw [State.takeFault_eq, State.faultedWith_status] at ht
    cases ht
    exact ⟨rfl, rfl, rfl, rfl, rfl, rfl, rfl, rfl⟩

/-! ### The effects that fail, and those that answer -/

theorem MachineState.callTo_of_full {m : MachineState} (a : Addr12) (h : m.sp = 16) :
    m.callTo a = .error .stackOverflow := by
  rw [callTo, push_of_full _ _ h]

theorem MachineState.callTo_of_lt {m : MachineState} (a : Addr12) (h : m.sp.val < 16) :
    m.callTo a =
      .ok ((m.setStack (m.stack.set m.sp.val m.pc) ⟨m.sp.val + 1, by omega⟩).setPc (addrWord a)) := by
  rw [callTo, push_of_lt _ _ h]

theorem MachineState.returnPopped_of_empty {m : MachineState} (h : m.sp = 0) :
    m.returnPopped = .error .stackUnderflow := by
  rw [returnPopped, pop_of_empty _ h]

theorem MachineState.returnPopped_of_pos {m : MachineState} (h : 0 < m.sp.val) :
    m.returnPopped =
      .ok ((m.setStack m.stack ⟨m.sp.val - 1, by omega⟩).setPc m.stack[m.sp.val - 1]) := by
  rw [returnPopped, pop_of_pos _ h]

theorem MachineState.loadBlock_error {m : MachineState} {n : Nat} (h : ¬(n = 0 ∨ m.I.toNat + n ≤ 0x1000)) :
    m.loadBlock n = .error (.memoryOutOfRange (max m.I.toNat 0x1000)) := by
  rw [loadBlock, checkBlock_error h]

theorem MachineState.loadBlock_ok {m : MachineState} {n : Nat} (h : n = 0 ∨ m.I.toNat + n ≤ 0x1000) :
    m.loadBlock n = .ok (Memory.readList m.memory m.I.toNat n) := by
  rw [loadBlock, checkBlock_ok h]

theorem MachineState.storeBlock_error {m : MachineState} {vs : List Byte}
    (h : ¬(vs.length = 0 ∨ m.I.toNat + vs.length ≤ 0x1000)) :
    m.storeBlock vs = .error (.memoryOutOfRange (max m.I.toNat 0x1000)) := by
  rw [storeBlock, checkBlock_error h]

theorem MachineState.storeBlock_ok {m : MachineState} {vs : List Byte}
    (h : vs.length = 0 ∨ m.I.toNat + vs.length ≤ 0x1000) :
    m.storeBlock vs = .ok (m.setMemory (Memory.writeList m.memory m.I.toNat vs)) := by
  rw [storeBlock, checkBlock_ok h]

theorem MachineState.draw_error {m : MachineState} (x y : Reg) {n : Nat} (h : ¬(n = 0 ∨ m.I.toNat + n ≤ 0x1000)) :
    m.draw x y n = .error (.memoryOutOfRange (max m.I.toNat 0x1000)) := by
  rw [draw, loadBlock_error h]

theorem MachineState.loadUpTo_error {m : MachineState} {x : Reg} (h : 0xFFF < m.I.toNat + x.val) :
    m.loadUpTo x = .error (.memoryOutOfRange (max m.I.toNat 0x1000)) := by
  rw [loadUpTo, loadBlock_error (by omega)]

theorem MachineState.loadUpTo_ok {m : MachineState} {x : Reg} (h : m.I.toNat + x.val ≤ 0xFFF) :
    m.loadUpTo x = .ok { m with V := loadRegs m.V 0 (Memory.readList m.memory m.I.toNat (x.val + 1)) } := by
  rw [loadUpTo, loadBlock_ok (by omega)]

theorem MachineState.skipIfKey_error {m : MachineState} {x : Reg} (h : 15 < (m.getV x).toNat) :
    m.skipIfKey x = .error (.keyIndexOutOfRange (m.getV x)) := by
  rw [skipIfKey, keyOperand_error h]

theorem MachineState.skipIfNotKey_error {m : MachineState} {x : Reg} (h : 15 < (m.getV x).toNat) :
    m.skipIfNotKey x = .error (.keyIndexOutOfRange (m.getV x)) := by
  rw [skipIfNotKey, keyOperand_error h]

/-! ### The fault of an instruction (R222) -/

/-- The fault of an "Exceptions" line with one check. -/
theorem check_of_ite_eq_some {c : Prop} [Decidable c] {f g : Fault} (h : (if c then some g else none) = some f) :
    c ∧ f = g := by
  split at h <;> cases h
  exact ⟨‹_›, rfl⟩

/-- An instruction whose check fails raises that check's fault: the converse of `faultOf_of_effectOf_error`. -/
theorem State.effectOf_error_of_faultOf {s : State} {i : Instr} {f : Fault} (h : s.current.faultOf i = some f) :
    s.effectOf i = .error f := by
  cases i
  case ret =>
    obtain ⟨hc, rfl⟩ := check_of_ite_eq_some h
    exact MachineState.returnPopped_of_empty hc
  case sys a | call a =>
    obtain ⟨hc, rfl⟩ := check_of_ite_eq_some h
    exact MachineState.callTo_of_full a hc
  case drw x y n =>
    obtain ⟨hc, rfl⟩ := check_of_ite_eq_some h
    exact MachineState.draw_error (m := s.fetched) x y (by rw [fetched_eq, MachineState.advance_I]; omega)
  case skp x =>
    obtain ⟨hc, rfl⟩ := check_of_ite_eq_some h
    exact MachineState.skipIfKey_error hc
  case sknp x =>
    obtain ⟨hc, rfl⟩ := check_of_ite_eq_some h
    exact MachineState.skipIfNotKey_error hc
  case ldB x =>
    obtain ⟨hc, rfl⟩ := check_of_ite_eq_some h
    refine MachineState.storeBlock_error (m := s.fetched) ?_
    simp only [bcdDigits, List.length_cons, List.length_nil, fetched_eq, MachineState.advance_I]
    omega
  case ldMemVx x =>
    obtain ⟨hc, rfl⟩ := check_of_ite_eq_some h
    refine MachineState.storeBlock_error (m := s.fetched) ?_
    rw [MachineState.length_regsUpTo, fetched_eq, MachineState.advance_I]
    omega
  case ldVxMem x =>
    obtain ⟨hc, rfl⟩ := check_of_ite_eq_some h
    exact MachineState.loadUpTo_error hc
  all_goals cases h

/-- Settles O13: an instruction's effect fails exactly by its check, and an effect that answers is retired. -/
theorem instructionsFaultExactlyWhen : Obligations.InstructionsFaultExactlyWhen := by
  refine fun i s => ⟨fun f h => ?_, fun h => ?_⟩
  · rw [exec_eq_finish, State.effectOf_error_of_faultOf h, State.finish_error, State.takeFault_eq]
  · cases he : s.effectOf i with
    | error f => rw [State.faultOf_of_effectOf_error he] at h; cases h
    | ok m => exact ⟨s.retire m, by rw [exec_eq_finish, he, State.finish_ok], rfl⟩

end Sys2Proof.Machine

/-! ## The instructions that complete

Each group of instructions writes the same pieces of state, so that one lemma per group gives the whole next state from
the effect: the register file, the stack, the framebuffer and VF, or a block of memory. -/

namespace Sys2Proof.Machine

/-! ### Instructions that move only `pc` (R129 to R131, R204, R205) -/

theorem byteWord_eq_ofNat (b : Byte) : byteWord b = BitVec.ofNat 16 b.toNat :=
  (BitVec.ofNat_toNat 16 b).symm

/-- Settles O19: the 16-bit sum of the zero-extended operands is their exact sum truncated. -/
theorem jumpOffsetAddsV0 : Obligations.JumpOffsetAddsV0 := by
  intro nnn s
  rw [BitVec.ofNat_add, ← byteWord_eq_ofNat, ← addrWord_eq_ofNat]
  exact pcWrite_of_effectOf_setPc rfl

/-- Settles O21: groups 5 and 9, whose skips are taken on opposite outcomes of one comparison. -/
theorem skipOnRegisters : Obligations.SkipOnRegisters := by
  refine ⟨encoded_of_fieldGroup fun _ => decodeWord_group5,
    encoded_of_fieldGroup fun _ => decodeWord_group9, fun x y s => ⟨?_, ?_⟩⟩
  · have h := pcWrite_of_effectOf_skipIf (i := .seReg x y) (c := s.current.getV x == s.current.getV y) rfl
    simpa only [beq_iff_eq] using h
  · have h := pcWrite_of_effectOf_skipIf (i := .sneReg x y) (c := s.current.getV x != s.current.getV y) rfl
    simpa only [bne_iff_ne, ne_eq, ite_not] using h

theorem State.effectOf_skp_ok {s : State} {x : Reg} {k : Fin 16} (h : (s.current.getV x).toNat = k.val) :
    s.effectOf (.skp x) = .ok (s.fetched.skipIf (s.current.keyActive k)) := by
  change s.fetched.skipIfKey x = _
  rw [MachineState.skipIfKey, MachineState.keyOperand_ok (m := s.fetched) h]
  rfl

theorem State.effectOf_sknp_ok {s : State} {x : Reg} {k : Fin 16} (h : (s.current.getV x).toNat = k.val) :
    s.effectOf (.sknp x) = .ok (s.fetched.skipIf (!s.current.keyActive k)) := by
  change s.fetched.skipIfNotKey x = _
  rw [MachineState.skipIfNotKey, MachineState.keyOperand_ok (m := s.fetched) h]
  rfl

/-- Settles O38: a key number in range names a key, active when its counter is above 0. -/
theorem skipOnKey : Obligations.SkipOnKey := by
  refine fun x k s h => ⟨?_, ?_⟩
  · simpa only [MachineState.keyActive_iff] using pcWrite_of_effectOf_skipIf (State.effectOf_skp_ok h)
  · simpa only [Bool.not_eq_true', ← Bool.not_eq_true, MachineState.keyActive_iff, ite_not] using
      pcWrite_of_effectOf_skipIf (State.effectOf_sknp_ok h)

/-! ### Call and return (R121 to R126) -/

/-- Settles O22: below depth 16 the push answers, and CALL and SYS have one effect. -/
theorem callPushesReturnAddress : Obligations.CallPushesReturnAddress := by
  intro i nnn s hi hsp
  have heff : s.effectOf i = s.fetched.callTo nnn := by rcases hi with rfl | rfl <;> rfl
  rw [MachineState.callTo_of_lt (m := s.fetched) nnn hsp] at heff
  refine completes_of_effectOf_ok heff ⟨addrWord_eq_ofNat nnn, rfl, fun j => ?_, fun _ => rfl, rfl, rfl, rfl, rfl, rfl,
    fun _ => rfl, sameScheduler_retire s _⟩
  change (s.current.stack.set s.current.sp.val (s.current.pc + 2#16) hsp)[j.val] = _
  rw [Vector.getElem_set]
  exact if_congr eq_comm rfl rfl

/-- Settles O23: above depth 0 the pop answers the slot below `sp`. -/
theorem returnPopsTarget : Obligations.ReturnPopsTarget := by
  intro s hsp
  have heff : s.effectOf .ret = _ := MachineState.returnPopped_of_pos (m := s.fetched) hsp
  refine completes_of_effectOf_ok heff ⟨fun j hj => ?_, Nat.sub_add_cancel hsp, rfl, fun _ => rfl, rfl, rfl, rfl, rfl,
    rfl, fun _ => rfl, sameScheduler_retire s _⟩
  have hslot : s.current.sp.val - 1 = j.val := by omega
  change s.current.stack[s.current.sp.val - 1] = s.current.stack[j.val]
  simp only [hslot]

/-- Settles O24: the return pops the slot that the call wrote. -/
theorem callThenReturn : Obligations.CallThenReturn := by
  intro nnn s hsp
  obtain ⟨t, ht, -, htsp, htstack, -⟩ := callPushesReturnAddress _ nnn s (.inl rfl) hsp
  obtain ⟨u, hu, hupc, husp, hustack, -⟩ := returnPopsTarget t (by omega)
  refine ⟨t, u, ht, hu, ?_, Fin.ext (by omega), fun j hj => ?_⟩
  · rw [hupc ⟨s.current.sp.val, hsp⟩ htsp.symm, htstack, if_pos rfl]
  · rw [hustack, htstack, if_neg (Nat.ne_of_lt hj)]

/-! ### Arithmetic with a flag (R157 to R162) -/

/-- An effect that replaces the register file after fetch is all such an instruction does. -/
theorem regWrite_of_effectOf_V {i : Instr} {s : State} {m : MachineState} {f : Reg → Byte}
    (h : s.effectOf i = .ok m) (hm : m = { s.fetched with V := m.V }) (hf : ∀ r, m.getV r = f r) : RegWrite i s f := by
  refine completes_of_effectOf_ok h ?_
  rw [hm] at hf ⊢
  exact ⟨rfl, hf, ⟨rfl, rfl, rfl, rfl, rfl, rfl⟩, rfl, fun _ => rfl, sameScheduler_retire s _⟩

theorem addFlag_eq (a b : Byte) : addFlag a b = if a.toNat + b.toNat ≤ 255 then 1#8 else 0#8 := by
  simp only [addFlag, flagByte, decide_eq_true_eq]

theorem subFlag_eq (a b : Byte) : subFlag a b = if b.toNat ≤ a.toNat then 1#8 else 0#8 := by
  simp only [subFlag, flagByte, decide_eq_true_eq]

/-- The machine's difference is the exact one, made positive by one wrap, truncated to a byte. -/
theorem byte_sub_eq_ofNat (a b : Byte) : a - b = BitVec.ofNat 8 (a.toNat + 256 - b.toNat) := by
  have hb := b.isLt
  apply BitVec.eq_of_toNat_eq
  rw [BitVec.toNat_sub, BitVec.toNat_ofNat]
  congr 1; omega

/-- Settles O27: the result, then the flag, which wins at VF. -/
theorem addRegistersSetsWrapFlag : Obligations.AddRegistersSetsWrapFlag := by
  refine fun x y s => regWrite_of_effectOf_V rfl rfl fun r => ?_
  rw [← BitVec.add_def, ← addFlag_eq]
  exact MachineState.getV_setResultThenFlag _ _ _ _ _

/-- Settles O28: as for the sum, with the operands in either order. -/
theorem subtractSetsWrapFlag : Obligations.SubtractSetsWrapFlag := by
  refine fun x y s => ⟨regWrite_of_effectOf_V rfl rfl fun r => ?_, regWrite_of_effectOf_V rfl rfl fun r => ?_⟩
  · rw [← byte_sub_eq_ofNat, ← subFlag_eq]
    exact MachineState.getV_setResultThenFlag _ _ _ _ _
  · rw [← byte_sub_eq_ofNat, ← subFlag_eq]
    exact MachineState.getV_setResultThenFlag _ _ _ _ _

/-- The flag written, then Vx by an operation that reads it as it then stands: at VF the operation is the last. -/
theorem MachineState.getV_flag_then_op (m : MachineState) (x r : Reg) (flag : Byte) (op : Byte → Byte) :
    ((m.setV VF flag).setV x (op ((m.setV VF flag).getV x))).getV r =
      if x = VF ∧ r = VF then op flag else if r = VF then flag else if r = x then op (m.getV x) else m.getV r := by
  simp only [getV_setV]
  by_cases hx : x = VF
  · subst hx
    by_cases hr : r = VF
    · simp only [hr, and_self, if_true]
    · simp only [hr, and_false, if_false]
  · by_cases hr : r = x
    · subst hr; simp only [hx, and_self, if_false, if_true]
    · simp only [hx, hr, false_and, if_false]

theorem shrFlag_eq_ofNat (v : Byte) : shrFlag v = BitVec.ofNat 8 (v.toNat % 2) := by
  apply BitVec.eq_of_toNat_eq
  simp [shrFlag, Nat.and_one_is_mod]; omega

theorem shlFlag_eq_ofNat (v : Byte) : shlFlag v = BitVec.ofNat 8 (v.toNat / 128) := by
  apply BitVec.eq_of_toNat_eq
  have := v.isLt
  simp [shlFlag, Nat.and_one_is_mod, Nat.shiftRight_eq_div_pow]; omega

theorem ushiftRight_one_eq_ofNat (v : Byte) : v >>> 1 = BitVec.ofNat 8 (v.toNat / 2) := by
  apply BitVec.eq_of_toNat_eq
  have := v.isLt
  simp [Nat.shiftRight_eq_div_pow]; omega

theorem shiftLeft_one_eq_ofNat (v : Byte) : v <<< 1 = BitVec.ofNat 8 (2 * v.toNat) := by
  apply BitVec.eq_of_toNat_eq
  simp [Nat.shiftLeft_eq, Nat.mul_comm]

/-- The bit shifted out on the right, itself shifted out. -/
theorem shrFlag_shifted (v : Byte) : shrFlag v >>> 1 = 0#8 := by
  rw [shrFlag_eq_ofNat, ushiftRight_one_eq_ofNat, BitVec.toNat_ofNat]
  congr 1; omega

/-- The bit shifted out on the left, shifted back by one. -/
theorem shlFlag_shifted (v : Byte) : shlFlag v <<< 1 = BitVec.ofNat 8 (2 * (v.toNat / 128)) := by
  have := v.isLt
  rw [shlFlag_eq_ofNat, shiftLeft_one_eq_ofNat, BitVec.toNat_ofNat]
  congr 1; omega

/-- Settles O29: at X = 15 the shift reads the flag, else the two registers are written apart. -/
theorem shiftsReadVxOnly : Obligations.ShiftsReadVxOnly := by
  refine fun x y s => ⟨regWrite_of_effectOf_V rfl rfl fun r => ?_, regWrite_of_effectOf_V rfl rfl fun r => ?_⟩
  · rw [← shrFlag_shifted (s.current.getV x), ← shrFlag_eq_ofNat, ← ushiftRight_one_eq_ofNat]
    exact s.fetched.getV_flag_then_op x r _ (· >>> 1)
  · rw [← shlFlag_shifted, ← shlFlag_eq_ofNat, ← shiftLeft_one_eq_ofNat]
    exact s.fetched.getV_flag_then_op x r _ (· <<< 1)

/-- Settles O30: the mask is on every bit of Vx, whatever the draw. -/
theorem randomIsMasked : Obligations.RandomIsMasked := by
  intro x nn s
  have h : RegWrite (.rnd x nn) s (fun r => if r = x then s.draw &&& nn else s.current.getV r) :=
    regWrite_of_effectOf_setV rfl
  refine ⟨h, fun t ht b hb => ?_⟩
  obtain ⟨u, hu, -, hregs, -⟩ := h
  rw [ht] at hu
  cases hu
  have hx : t.current.getV x = s.draw &&& nn := (hregs x).trans (if_pos rfl)
  rw [hx, BitVec.getLsbD_and, hb, Bool.and_false]

/-- Settles O32: the two sums are exact ones truncated to 16 bits. -/
theorem indexArithmetic : Obligations.IndexArithmetic := by
  refine fun x s => ⟨?_, indexWrite_of_effectOf_setI rfl⟩
  rw [BitVec.ofNat_add, ← byteWord_eq_ofNat, BitVec.ofNat_toNat, BitVec.setWidth_eq]
  exact indexWrite_of_effectOf_setI rfl

/-! ### The sprite drawn (R107) -/

theorem flagByte_cases (b : Bool) : flagByte b = 1#8 ∨ flagByte b = 0#8 := by
  cases b
  · exact .inr rfl
  · exact .inl rfl

theorem flagByte_eq_one_iff (b : Bool) : flagByte b = 1#8 ↔ b = true := by
  cases b <;> decide

/-- Retiring writes no register. -/
theorem State.getV_retire (s : State) (m : MachineState) (r : Reg) : (s.retire m).current.getV r = m.getV r := rfl

theorem MachineState.draw_ok {m : MachineState} (x y : Reg) {n : Nat} (h : n = 0 ∨ m.I.toNat + n ≤ 0x1000) :
    m.draw x y n =
      .ok ((m.setFb (drawSprite m.fb (m.getV x) (m.getV y) (Memory.readList m.memory m.I.toNat n)).1).setV VF
        (flagByte (drawSprite m.fb (m.getV x) (m.getV y) (Memory.readList m.memory m.I.toNat n)).2)) := by
  rw [draw, loadBlock_ok h]

/-- Settles O16: the sprite engine's pixels and collision, with VF written last. -/
theorem drawInstruction : Obligations.DrawInstruction := by
  intro x y n s h
  have hrange : n.val = 0 ∨ s.current.I.toNat + n.val ≤ 0x1000 :=
    h.imp (fun h0 => congrArg Fin.val h0) (fun hI => by omega)
  obtain ⟨hpix, hcol⟩ := drawSpritePixels s.current.fb (s.current.getV x) (s.current.getV y)
    (Memory.readList s.current.memory s.current.I.toNat n.val)
  have heff : s.effectOf (.drw x y n) = _ := MachineState.draw_ok (m := s.fetched) x y hrange
  refine completes_of_effectOf_ok heff ⟨hpix, ?_, ?_, fun r hr => ?_, rfl, ⟨rfl, rfl, rfl, rfl, rfl, rfl⟩,
    fun _ => rfl, sameScheduler_retire s _⟩
  · rw [State.getV_retire, MachineState.getV_setV, if_pos (show (15 : Reg) = VF from rfl)]
    exact flagByte_cases _
  · rw [State.getV_retire, MachineState.getV_setV, if_pos (show (15 : Reg) = VF from rfl)]
    exact (flagByte_eq_one_iff _).trans hcol
  · rw [State.getV_retire, MachineState.getV_setV, if_neg (show r ≠ VF from hr)]
    rfl

/-- Blocks read alike in memories that read alike. -/
theorem Memory.readList_congr {m m' : Memory} (h : ∀ a, Memory.read m' a = Memory.read m a) (a n : Nat) :
    Memory.readList m' a n = Memory.readList m a n := by
  simp only [Memory.readList, h]

/-- Settles O17: the second draw XORs the same sprite, read from the same memory at the same origin. -/
theorem drawTwiceRestores : Obligations.DrawTwiceRestores := by
  intro x y n s hx hy h
  obtain ⟨t, ht, htpix, htflag, htcol, htregs, -, ⟨htI, -⟩, htmem, -⟩ := drawInstruction x y n s h
  obtain ⟨u, hu, hupix, -, hucol, -⟩ := drawInstruction x y n t (by rw [htI]; exact h)
  rw [htregs x hx, htregs y hy, htI, Memory.readList_congr htmem] at hupix hucol
  refine ⟨t, u, ht, hu, ?_, fun hblank => ⟨?_, ?_⟩⟩
  · refine Vector.ext fun row hr => Vector.ext fun col hc => ?_
    rw [hupix, htpix, Bool.xor_assoc, Bool.xor_self, Bool.xor_false]
  · refine htflag.resolve_left fun h1 => ?_
    obtain ⟨row, col, hr, hc, hlit, -⟩ := htcol.mp h1
    rw [hblank] at hlit; cases hlit
  · have hsprite : ∀ (row col : Nat) (hr : row < 32) (hc : col < 64), t.current.fb[row][col] = spriteBit _ _ _ row col :=
      fun row col hr hc => by rw [htpix, hblank, Bool.false_xor]
    simp only [hucol, hsprite, and_self]

/-! ### Blocks stored and loaded (R184 to R187) -/

/-- An instruction that stores the bytes `vs` from I up: it completes with them there, `pc` past it, and nothing else
changed. -/
def StoreWrite (i : Instr) (s : State) (vs : List Byte) : Prop :=
  Completes i s fun t =>
    (∀ a, Memory.read t.current.memory a = byteAfterStore s.current vs a) ∧ t.current.pc = s.current.pc + 2#16 ∧
      SameRegs s t ∧ SameSpecial s t ∧ t.current.fb = s.current.fb ∧ SameScheduler s t

/-- The store's effect is all such an instruction does. -/
theorem storeWrite_of_effectOf_storeBlock {i : Instr} {s : State} {vs : List Byte}
    (h : s.effectOf i = s.fetched.storeBlock vs) (hwf : Memory.wf s.current.memory = true)
    (hr : s.current.I.toNat + vs.length ≤ 0x1000) : StoreWrite i s vs := by
  rw [MachineState.storeBlock_ok (m := s.fetched) (.inr hr)] at h
  exact completes_of_effectOf_ok h ⟨Memory.read_writeList hwf hr, rfl, fun _ => rfl, ⟨rfl, rfl, rfl, rfl, rfl, rfl⟩, rfl,
    sameScheduler_retire s _⟩

theorem byteAfterStore_inside {m : MachineState} {vs : List Byte} (j : Nat) (h : j < vs.length) :
    byteAfterStore m vs (m.I.toNat + j) = vs[j] := by
  rw [byteAfterStore, if_pos (by omega), Nat.add_sub_cancel_left, List.getD_eq_getElem _ _ h]

theorem byteAfterStore_outside {m : MachineState} {vs : List Byte} {a : Nat}
    (h : a < m.I.toNat ∨ m.I.toNat + vs.length ≤ a) : byteAfterStore m vs a = Memory.read m.memory a :=
  if_neg (by omega)

theorem length_storedRegisters (m : MachineState) (x : Reg) : (storedRegisters m x).length = x.val + 1 := by
  rw [storedRegisters, List.length_map, List.length_range]

theorem getElem_storedRegisters (m : MachineState) (x : Reg) (j : Nat) (h : j < (storedRegisters m x).length) :
    (storedRegisters m x)[j] = m.getV (Fin.ofNat 16 j) := by
  simp only [storedRegisters, List.getElem_map, List.getElem_range]

/-- The bytes FX55 stores are V0 to Vx, as the statements write them. -/
theorem MachineState.regsUpTo_eq_storedRegisters (m : MachineState) (x : Reg) : m.regsUpTo x = storedRegisters m x := by
  refine List.ext_getElem (by rw [length_regsUpTo, length_storedRegisters]) fun j hj hj' => ?_
  rw [getElem_regsUpTo, getElem_storedRegisters]
  have hlt : j < 16 := by rw [length_regsUpTo] at hj; omega
  have hmod : j % 16 = j := Nat.mod_eq_of_lt hlt
  simp only [getV, Fin.ofNat, Fin.getElem_fin, hmod]

theorem storeWrite_ldMemVx {x : Reg} {s : State} (hwf : Memory.wf s.current.memory = true)
    (h : s.current.I.toNat + x.val ≤ 0xFFF) : StoreWrite (.ldMemVx x) s (storedRegisters s.current x) :=
  storeWrite_of_effectOf_storeBlock (congrArg s.fetched.storeBlock (s.fetched.regsUpTo_eq_storedRegisters x)) hwf
    (by rw [length_storedRegisters]; omega)

theorem storeWrite_ldB {x : Reg} {s : State} (hwf : Memory.wf s.current.memory = true)
    (h : s.current.I.toNat + 2 ≤ 0xFFF) : StoreWrite (.ldB x) s (storedDigits s.current x) :=
  storeWrite_of_effectOf_storeBlock rfl hwf (Nat.succ_le_succ h)

/-- Settles O33: each digit is less than 256, so that its byte is it. -/
theorem storeDecimalDigits : Obligations.StoreDecimalDigits := by
  intro x s hwf hI
  obtain ⟨t, ht, hmem, hpc, hregs, hspecial, hfb, hsched⟩ := storeWrite_ldB (x := x) hwf hI
  have hlt := (s.current.getV x).isLt
  have hdigit : ∀ (j : Nat) (hj : j < 3),
      Memory.read t.current.memory (s.current.I.toNat + j) = (storedDigits s.current x)[j] := fun j hj =>
    (hmem _).trans (byteAfterStore_inside (vs := storedDigits s.current x) j hj)
  refine ⟨t, ht, ?_, ?_, ?_, fun a ha => (hmem a).trans (byteAfterStore_outside ha), hpc, hregs, hspecial, hfb, hsched⟩
  · exact (congrArg BitVec.toNat (hdigit 0 (by decide))).trans (Nat.mod_eq_of_lt (by omega))
  · exact (congrArg BitVec.toNat (hdigit 1 (by decide))).trans (Nat.mod_eq_of_lt (by omega))
  · exact (congrArg BitVec.toNat (hdigit 2 (by decide))).trans (Nat.mod_eq_of_lt (by omega))

/-- The register stored `r` bytes after I. -/
theorem byteAfterStore_storedRegisters (m : MachineState) {x r : Reg} (h : r ≤ x) :
    byteAfterStore m (storedRegisters m x) (m.I.toNat + r.val) = m.getV r := by
  rw [byteAfterStore_inside r.val (by rw [length_storedRegisters]; exact Nat.lt_succ_of_le h),
    getElem_storedRegisters]
  exact congrArg m.getV (Fin.ext (Nat.mod_eq_of_lt r.isLt))

/-- Settles O34: the block holds V0 to Vx, and everything else stays. -/
theorem storeRegisters : Obligations.StoreRegisters := by
  intro x s hwf hI
  obtain ⟨t, ht, hmem, hrest⟩ := storeWrite_ldMemVx hwf hI
  refine ⟨t, ht, fun r hr => (hmem _).trans (byteAfterStore_storedRegisters _ hr), fun a ha => ?_, hrest⟩
  exact (hmem a).trans (byteAfterStore_outside (by rw [length_storedRegisters]; exact ha))

/-- Settles O35: the registers up to Vx are the bytes of the block in order. -/
theorem loadRegisters : Obligations.LoadRegisters := by
  intro x s hI
  have heff : s.effectOf (.ldVxMem x) = _ := MachineState.loadUpTo_ok (m := s.fetched) hI
  refine regWrite_of_effectOf_V heff rfl fun r => ?_
  refine (getElem_loadRegs _ _ _ r.val r.isLt).trans ?_
  simp only [Memory.length_readList, Memory.getElem_readList, Nat.zero_le, true_and, Nat.sub_zero, Nat.lt_succ_iff]
  exact dite_eq_ite

/-- Settles O36: the load reads back the block that the store wrote. -/
theorem storeThenLoadRestores : Obligations.StoreThenLoadRestores := by
  intro x s hwf hI
  obtain ⟨t, ht, hstored, -, -, hregs, ⟨htI, -⟩, -⟩ := storeRegisters x s hwf hI
  refine ⟨t, ht, fun t' hmem' hI' hregs' => ?_⟩
  rw [htI] at hI'
  obtain ⟨u, hu, -, hloaded, -⟩ := loadRegisters x t' (by rw [hI']; exact hI)
  refine ⟨u, hu, fun r => (hloaded r).trans ?_⟩
  by_cases hr : r ≤ x
  · exact (if_pos hr).trans (by rw [hmem', hI', hstored r hr])
  · exact (if_neg hr).trans (by rw [hregs' r (not_le.mp hr), hregs])

/-- After a store, the next fetch reads memory as the store left it (R61). -/
theorem fetchWord_of_storeWrite {i : Instr} {s : State} {vs : List Byte} (h : StoreWrite i s vs)
    (hpc : (s.current.pc + 2#16).toNat ≤ 0xFFE) :
    ∃ t, exec i s = .next t ∧ t.current.fetchWord = .ok (fetchedAfterStore s.current vs) := by
  obtain ⟨t, ht, hmem, htpc, -⟩ := h
  refine ⟨t, ht, ?_⟩
  rw [MachineState.fetchWord_ok (by rw [htpc]; exact hpc), htpc, hmem, hmem]
  rfl

/-- Settles O37: both stores leave the bytes that the next fetch reads. -/
theorem storeSeenByNextFetch : Obligations.StoreSeenByNextFetch := fun _ _ hwf hpc =>
  ⟨fun hI => fetchWord_of_storeWrite (storeWrite_ldMemVx hwf hI) hpc,
    fun hI => fetchWord_of_storeWrite (storeWrite_ldB hwf hI) hpc⟩

end Sys2Proof.Machine

/-! ## The scheduler

What each event does in status Running, what a whole step leaves unchanged, and the rewind, which undoes forward ticks
one snapshot at a time. -/

namespace Sys2Proof.Machine

/-! ### The order of delivery (R233, R245) -/

/-- A run over one event is that event's. -/
theorem State.runEvents_singleton (s : State) (e : Event) : s.runEvents [e] = s.eventStep e := by
  rw [runEvents]
  split <;> simp only [runEvents, *]

theorem State.runEvents_of_stopped {s : State} (h : s.status ≠ .running) (es : List Event) :
    s.runEvents es = .next s := by
  induction es with
  | nil => rfl
  | cons e rest ih => rw [runEvents, eventStep_stopped h]; exact ih

/-- Settles O12: no handler runs in such a status, now or after any events. -/
theorem terminalStatusIsAbsorbing : Obligations.TerminalStatusIsAbsorbing := by
  refine fun s h => ⟨?_, State.runEvents_of_stopped h⟩
  cases he : s.nextEvent with
  | none => exact step_of_none he
  | some e => rw [step_of_some he, State.eventStep_stopped (s := s.dequeued) h]

/-- Settles O44: the three sources of the next event. -/
theorem stepDeliversNextEvent : Obligations.StepDeliversNextEvent := by
  refine ⟨fun s e rest hp => ?_, fun s hp => ?_, fun s t events n h => ?_⟩
  · have he : s.nextEvent = some e := by rw [State.nextEvent, hp]
    rw [step_of_some he, State.dequeued, hp, List.tail_cons]
  · have he : s.nextEvent = Config.arrival s.stepCount := by rw [State.nextEvent, hp]
    have hd : s.dequeued = { s with stepCount := s.stepCount + 1 } := by
      rw [State.dequeued, hp, List.tail_nil, ← hp]
    cases ha : Config.arrival s.stepCount with
    | none => exact (step_of_none (he.trans ha)).trans (congrArg _ hd)
    | some e => exact (step_of_some (he.trans ha)).trans (congrArg (State.eventStep · e) hd)
  · rw [State.runStream, List.range_succ, List.map_append, State.runEvents_append h]
    exact State.runEvents_singleton t (events n)

/-! ### The events in status Running (R234 to R244) -/

/-- Settles O45: the tick's first test is on the counter and the history, its second on `paused`. -/
theorem cpuTickBranches : Obligations.CpuTickBranches := by
  intro s r hs
  simp only [State.eventStep_running hs]
  refine ⟨fun m h hrew hh => ?_, fun hno hp => ?_, fun hno hp => ?_⟩
  · have hne : s.history ≠ [] := by rw [hh]; simp
    rw [State.handle, State.onCpuTick_rewind r hrew hne, State.popHistory_of_append hh]
  · rw [State.handle, State.onCpuTick_noRewind r hno, if_pos hp]
  · rw [State.handle, State.onCpuTick_noRewind r hno, hp]; rfl

/-- An interpreter step writes `current`, the status and the count of free values alone. -/
theorem State.interpStep_frame {s t : State} (h : s.interpStep = .next t) :
    t.history = s.history ∧ t.paused = s.paused ∧ t.rewind = s.rewind ∧ t.draw = s.draw ∧ t.pending = s.pending ∧
      t.params = s.params := by
  rcases interpStep_cases h with ⟨i, m, -, -, rfl⟩ | ⟨f, rfl⟩ <;> exact ⟨rfl, rfl, rfl, rfl, rfl, rfl⟩

/-- Settles O46: StepForward is the interpreter step of the pushed state, StepBack a restore. -/
theorem stepCommands : Obligations.StepCommands := by
  intro s r hs
  simp only [State.eventStep_running hs]
  exact ⟨rfl, fun t ht => State.interpStep_frame ht, fun m h hh => congrArg _ (State.popHistory_of_append hh),
    fun hh => congrArg _ (State.popHistory_of_nil hh)⟩

/-- Settles O48: the snapshot that StepForward appends is the one that StepBack restores. -/
theorem stepForwardThenBack : Obligations.StepForwardThenBack := by
  intro s t r hs hroom ht hrun
  obtain ⟨-, hframe, -⟩ := stepCommands s r hs
  obtain ⟨hhist, -⟩ := hframe t ht
  rw [pushHistory_of_room _ hroom] at hhist
  obtain ⟨-, -, hback, -⟩ := stepCommands t r hrun
  exact ⟨_, hback _ _ hhist, rfl, rfl, hrun⟩

/-- Settles O50: each handler replaces `current` by its operation's MachineState. -/
theorem deviceEventsActWhilePaused : Obligations.DeviceEventsActWhilePaused := by
  intro s k hs
  simp only [State.eventStep_running hs]
  exact ⟨rfl, rfl, rfl⟩

/-- Settles O49: a device event runs its operation, or nothing when the machine has stopped. -/
theorem deviceEventsChangeOnlyDevices : Obligations.DeviceEventsChangeOnlyDevices := by
  intro s e t he ht
  by_cases hs : s.status = .running
  · rw [State.eventStep_running hs] at ht
    rcases he with rfl | rfl | ⟨k, rfl⟩ <;> cases ht
    · exact ⟨s.current.timerTick.DT, s.current.keys, rfl, fun _ => rfl, fun h => absurd rfl h⟩
    · exact ⟨s.current.DT, s.current.keyDecay.keys, rfl, nofun, fun _ => rfl⟩
    · exact ⟨s.current.DT, (s.current.pressKey k).keys, rfl, nofun, fun _ => rfl⟩
  · rw [State.eventStep_stopped hs] at ht
    cases ht
    exact ⟨s.current.DT, s.current.keys, rfl, fun _ => rfl, fun _ => rfl⟩

/-- Settles O51: each command's handler is its effect; RewindDecay's subtraction is of naturals. -/
theorem commandEvents : Obligations.CommandEvents := by
  intro s b n hs
  simp only [State.eventStep_running hs]
  refine ⟨rfl, rfl, ⟨_, rfl, rfl, fun h => Nat.sub_add_cancel h, fun h => ?_⟩, rfl, rfl, rfl⟩
  exact congrArg (· - 1) h

/-! ### What a step leaves unchanged -/

/-- Settles O52: of all a step can do, only the listed events write these fields. -/
theorem onlyListedEventsChangeScheduler : Obligations.OnlyListedEventsChangeScheduler := by
  intro s t h
  rcases step_cases h with ⟨-, rfl⟩ | ⟨-, -, hi⟩ | ⟨-, -, _, _, -, rfl⟩ | ⟨-, rfl⟩ | ⟨-, -, rfl⟩ | ⟨-, -, rfl⟩ |
    ⟨-, _, -, rfl⟩ | ⟨-, b, he, rfl⟩ | ⟨-, he, rfl⟩ | ⟨-, n, he, rfl⟩ | ⟨-, he, rfl⟩ | ⟨-, -, rfl⟩
  · exact ⟨absurd rfl, absurd rfl, rfl, rfl⟩
  · obtain ⟨-, hpaused, hrewind, -, hpending, hparams⟩ := State.interpStep_frame hi
    exact ⟨absurd hrewind, absurd hpaused, hparams, hpending⟩
  · exact ⟨absurd rfl, absurd rfl, rfl, rfl⟩
  · exact ⟨absurd rfl, absurd rfl, rfl, rfl⟩
  · exact ⟨absurd rfl, absurd rfl, rfl, rfl⟩
  · exact ⟨absurd rfl, absurd rfl, rfl, rfl⟩
  · exact ⟨absurd rfl, absurd rfl, rfl, rfl⟩
  · exact ⟨absurd rfl, fun _ => ⟨b, he⟩, rfl, rfl⟩
  · exact ⟨fun _ => .inr (.inr he), absurd rfl, rfl, rfl⟩
  · exact ⟨fun _ => .inl ⟨n, he⟩, absurd rfl, rfl, rfl⟩
  · exact ⟨fun _ => .inr (.inl he), absurd rfl, rfl, rfl⟩
  · exact ⟨absurd rfl, absurd rfl, rfl, rfl⟩

/-- Everything a step can do to `current`. -/
theorem step_current_cases {s t : State} (h : step s = .next t) :
    t.current = s.current ∨
    (s.runsInstruction = true ∧
      ∃ i m, s.current.nextInstr = some i ∧ s.current.Change i m ∧ t.current = { m with trace := t.current.trace }) ∨
    s.restores = true ∨ s.nextEvent = some .reset ∨
    (s.nextEvent = some .timerTick ∧ t.current = s.current.timerTick) ∨
    s.nextEvent = some .keyDecayTick ∧ t.current = s.current.keyDecay ∨
    ∃ k, s.nextEvent = some (.keyPress k) ∧ t.current = s.current.pressKey k := by
  rcases step_cases h with ⟨-, rfl⟩ | ⟨-, hr, hi⟩ | ⟨-, hres, -⟩ | ⟨-, rfl⟩ | ⟨-, he, rfl⟩ | ⟨-, he, rfl⟩ |
    ⟨-, k, he, rfl⟩ | ⟨-, _, -, rfl⟩ | ⟨-, he, rfl⟩ | ⟨-, _, -, rfl⟩ | ⟨-, -, rfl⟩ | ⟨-, -, rfl⟩
  · exact .inl rfl
  · rcases State.interpStep_cases hi with ⟨i, m, hnext, hm, rfl⟩ | ⟨f, rfl⟩
    · exact .inr (.inl ⟨hr, i, m, hnext, State.change_of_effectOf_ok (s := s.pushed) hm, rfl⟩)
    · exact .inl rfl
  · exact .inr (.inr (.inl hres))
  · exact .inl rfl
  · exact .inr (.inr (.inr (.inr (.inl ⟨he, rfl⟩))))
  · exact .inr (.inr (.inr (.inr (.inr (.inl ⟨he, rfl⟩)))))
  · exact .inr (.inr (.inr (.inr (.inr (.inr ⟨k, he, rfl⟩)))))
  · exact .inl rfl
  · exact .inr (.inr (.inr (.inl he)))
  · exact .inl rfl
  · exact .inl rfl
  · exact .inl rfl

/-- Settles O53: of the changes of an instruction only LD ST, Vx writes ST, and no device event does. -/
theorem onlyListedEventsChangeSoundTimer : Obligations.OnlyListedEventsChangeSoundTimer := by
  intro s t h hne
  rcases step_current_cases h with hc | ⟨hr, i, m, hnext, hm, hc⟩ | hres | he | ⟨-, hc⟩ | ⟨-, hc⟩ | ⟨k, -, hc⟩
  · exact absurd (congrArg MachineState.ST hc) hne
  · rw [hc] at hne
    obtain ⟨x, rfl⟩ := hm.ST_of_ne hne
    exact .inr (.inr ⟨hr, x, hnext⟩)
  · exact .inl hres
  · exact .inr (.inl he)
  · exact absurd (by rw [hc, MachineState.timerTick_ST]) hne
  · exact absurd (by rw [hc, MachineState.keyDecay_ST]) hne
  · exact absurd (by rw [hc, MachineState.pressKey_ST]) hne

/-- Settles O54: no change of an instruction writes the keys, and no timer tick does. -/
theorem onlyListedEventsChangeKeys : Obligations.OnlyListedEventsChangeKeys := by
  intro s t h hne
  rcases step_current_cases h with hc | ⟨-, i, m, -, hm, hc⟩ | hres | he | ⟨-, hc⟩ | ⟨he, -⟩ | ⟨k, he, -⟩
  · exact absurd (congrArg MachineState.keys hc) hne
  · rw [hc] at hne
    exact absurd hm.keys_eq hne
  · exact .inr (.inr (.inr hres))
  · exact .inr (.inr (.inl he))
  · exact absurd (by rw [hc, MachineState.timerTick_keys]) hne
  · exact .inr (.inl he)
  · exact .inl ⟨k, he⟩

end Sys2Proof.Machine

/-! ## Rewind restores exactly

The forward ticks of a span append one snapshot each, and the rewind ticks take one off each, so that the last of them
restores the state before the first forward tick; the device events between touch `current` alone (R247). -/

namespace Sys2Proof.Machine

/-! ### Runs -/

theorem State.runEvents_cons {s t : State} {e : Event} (h : s.eventStep e = .next t) (es : List Event) :
    s.runEvents (e :: es) = t.runEvents es := by
  rw [runEvents, h]

/-- A run that ends in status Running was in it at its start. -/
theorem State.running_of_runEvents {s t : State} {es : List Event} (h : s.runEvents es = .next t)
    (ht : t.status = .running) : s.status = .running := by
  by_contra hs
  rw [runEvents_of_stopped hs] at h
  cases h
  exact hs ht

theorem cpuTicks_cons_of_isCpuTick {e : Event} (es : List Event) (h : e.isCpuTick = true) :
    cpuTicks (e :: es) = cpuTicks es + 1 := List.countP_cons_of_pos h

theorem cpuTicks_cons_of_not_isCpuTick {e : Event} (es : List Event) (h : e.isCpuTick = false) :
    cpuTicks (e :: es) = cpuTicks es := List.countP_cons_of_neg (by rw [h]; decide)

theorem hasRoom_mono {cap : HistoryCapacity} {n k : Nat} (hle : n ≤ k) (h : HasRoom cap k) : HasRoom cap n := by
  cases cap with
  | unbounded => trivial
  | bounded c => exact hle.trans h

/-! ### The events of a span -/

/-- The events of a span are CPU ticks, and device events, which replace `current`. -/
theorem State.eventStep_of_inRewindSpan {s : State} (hs : s.status = .running) {e : Event}
    (he : e.inRewindSpan = true) :
    (∃ r, e = .cpuTick r) ∨ e.isCpuTick = false ∧ ∃ m, s.eventStep e = .next { s with current := m } := by
  rw [eventStep_running hs]
  cases e with
  | cpuTick r => exact .inl ⟨r, rfl⟩
  | timerTick | keyDecayTick | keyPress => exact .inr ⟨rfl, _, rfl⟩
  | setPaused | reset | stepForward | stepBack | beginRewind | rewindDecay | resize | quit => cases he

/-- A forward tick with room appends `current` to the history. -/
theorem State.history_of_forward_tick {s t : State} {r : Byte} (hs : s.status = .running) (hp : s.paused = false)
    (hrew : s.rewind = 0) (hroom : HasRoom s.params.historyCapacity (s.history.length + 1))
    (h : s.eventStep (.cpuTick r) = .next t) :
    t.history = s.history ++ [s.current] ∧ t.paused = false ∧ t.rewind = 0 ∧ t.params = s.params := by
  obtain ⟨-, -, hforward⟩ := cpuTickBranches s r hs
  rw [hforward (.inl hrew) hp] at h
  obtain ⟨-, hframe, -⟩ := stepCommands s r hs
  obtain ⟨hhist, hpaused, hrewind, -, -, hparams⟩ := hframe t h
  rw [pushHistory_of_room _ hroom] at hhist
  exact ⟨hhist, hpaused.trans hp, hrewind.trans hrew, hparams⟩

/-- A span run forward without fault appends one snapshot for each of its CPU ticks. -/
theorem State.history_of_forward_span {s t : State} {es : List Event} (hp : s.paused = false) (hrew : s.rewind = 0)
    (hroom : HasRoom s.params.historyCapacity (s.history.length + cpuTicks es))
    (hspan : ∀ e ∈ es, e.inRewindSpan = true) (h : s.runEvents es = .next t) (ht : t.status = .running) :
    ∃ l, t.history = s.history ++ l ∧ l.length = cpuTicks es := by
  induction es generalizing s with
  | nil => cases h; exact ⟨[], (List.append_nil _).symm, rfl⟩
  | cons e rest ih =>
    obtain ⟨he, hrest⟩ := List.forall_mem_cons.mp hspan
    have hs := running_of_runEvents h ht
    obtain ⟨u, hu⟩ := eventStep_next s e
    rw [runEvents_cons hu] at h
    rcases eventStep_of_inRewindSpan hs he with ⟨r, rfl⟩ | ⟨hnot, m, hm⟩
    · rw [cpuTicks_cons_of_isCpuTick rest rfl] at hroom ⊢
      obtain ⟨huhist, hup, hurew, huparams⟩ := history_of_forward_tick hs hp hrew (hasRoom_mono (by omega) hroom) hu
      have huroom : HasRoom u.params.historyCapacity (u.history.length + cpuTicks rest) := by
        rw [huparams, huhist, List.length_append, List.length_singleton]
        exact hasRoom_mono (by omega) hroom
      obtain ⟨l, hl, hlen⟩ := ih hup hurew huroom hrest h
      exact ⟨s.current :: l, by rw [hl, huhist, List.append_assoc]; rfl, congrArg (· + 1) hlen⟩
    · rw [cpuTicks_cons_of_not_isCpuTick rest hnot] at hroom ⊢
      rw [hm] at hu
      cases hu
      exact ih (s := { s with current := m }) hp hrew hroom hrest h

/-- A span run while rewinding takes one snapshot off the history for each of its CPU ticks. -/
theorem State.history_of_backward_span {s : State} {base l : List MachineState} {es : List Event}
    (hs : s.status = .running) (hrew : 0 < s.rewind) (hhist : s.history = base ++ l) (hlen : l.length = cpuTicks es)
    (hspan : ∀ e ∈ es, e.inRewindSpan = true) :
    ∃ t, s.runEvents es = .next t ∧ t.history = base ∧ t.status = .running ∧ 0 < t.rewind := by
  induction es generalizing s l with
  | nil =>
    obtain rfl : l = [] := List.length_eq_zero_iff.mp hlen
    exact ⟨s, rfl, hhist.trans (List.append_nil _), hs, hrew⟩
  | cons e rest ih =>
    obtain ⟨he, hrest⟩ := List.forall_mem_cons.mp hspan
    rcases eventStep_of_inRewindSpan hs he with ⟨r, rfl⟩ | ⟨hnot, m, hm⟩
    · rw [cpuTicks_cons_of_isCpuTick rest rfl] at hlen
      obtain ⟨l', m, rfl⟩ : ∃ l' m, l = l' ++ [m] := by
        rcases List.eq_nil_or_concat l with rfl | ⟨l', m, rfl⟩
        · cases hlen
        · exact ⟨l', m, List.concat_eq_append⟩
      rw [List.length_append, List.length_singleton] at hlen
      rw [← List.append_assoc] at hhist
      obtain ⟨hback, -⟩ := cpuTickBranches s r hs
      rw [runEvents_cons (hback m _ hrew hhist)]
      exact ih hs hrew rfl (Nat.succ.inj hlen) hrest
    · rw [cpuTicks_cons_of_not_isCpuTick rest hnot] at hlen
      rw [runEvents_cons hm]
      exact ih hs hrew hhist hlen hrest

/-- Settles O55: the forward span leaves the first snapshot and one more for each later tick; the backward span takes
those off, and the last tick restores the first. -/
theorem rewindRestoresExactly : Obligations.RewindRestoresExactly := by
  intro s s' first last forth back n hs hp hrew hroom hforth hback hrun hs' hn hticks
  obtain ⟨t, ht⟩ := State.eventStep_next s (.cpuTick first)
  rw [State.runEvents_cons ht] at hrun
  obtain ⟨hthist, htp, htrew, htparams⟩ :=
    State.history_of_forward_tick hs hp hrew (hasRoom_mono (by omega) hroom) ht
  have htroom : HasRoom t.params.historyCapacity (t.history.length + cpuTicks forth) := by
    rw [htparams, hthist, List.length_append, List.length_singleton]
    exact hasRoom_mono (by omega) hroom
  obtain ⟨l, hl, hlen⟩ := State.history_of_forward_span htp htrew htroom hforth hrun hs'
  obtain ⟨-, hbegin, -⟩ := commandEvents s' true n hs'
  obtain ⟨v, hv, hvhist, hvs, hvrew⟩ := State.history_of_backward_span (s := { s' with rewind := n }) hs' hn hl
    (hlen.trans hticks.symm) hback
  rw [hthist] at hvhist
  obtain ⟨hlast, -⟩ := cpuTickBranches v last hvs
  rw [List.cons_append, State.runEvents_cons hbegin, State.runEvents_append hv, State.runEvents_singleton,
    hlast _ _ hvrew hvhist]
  exact ⟨_, rfl, rfl, rfl, hvs⟩

end Sys2Proof.Machine

/-! ## Memory and power-on

A canonical list is determined by what it reads; memory at power-on is two blocks written over the default font and
zeros. -/

namespace Sys2Proof.Machine

/-! ### The canonical form (R50) -/

/-- The canonical form, entry by entry. -/
theorem Memory.wfFrom_cons_iff {lo a : Nat} {v : Byte} {m : Memory} :
    Memory.wfFrom lo ((a, v) :: m) = true ↔
      lo ≤ a ∧ a < memSize ∧ v ≠ resetByte a ∧ Memory.wfFrom (a + 1) m = true := by
  simp only [Memory.wfFrom, Bool.and_eq_true, decide_eq_true_eq, and_assoc]

theorem Memory.read_cons_self (a : Nat) (v : Byte) (m : Memory) : Memory.read ((a, v) :: m) a = v := if_pos rfl

theorem Memory.read_cons_of_ne {a b : Nat} (v : Byte) (m : Memory) (h : b ≠ a) :
    Memory.read ((a, v) :: m) b = Memory.read m b := if_neg h

/-- A canonical list that begins at `a` cannot read as one whose addresses all lie above `a`. -/
theorem Memory.not_read_eq_of_wfFrom_lt {lo a : Nat} {v : Byte} {m m' : Memory}
    (h : Memory.wfFrom lo ((a, v) :: m) = true) (h' : Memory.wfFrom (a + 1) m' = true) :
    ¬∀ b, Memory.read ((a, v) :: m) b = Memory.read m' b := by
  intro hread
  obtain ⟨-, -, hv, -⟩ := wfFrom_cons_iff.mp h
  have ha := hread a
  rw [read_cons_self, read_of_wfFrom_lt h' (Nat.lt_succ_self a)] at ha
  exact hv ha

/-- Canonical lists that read alike begin alike, and so do their rests. -/
theorem Memory.eq_of_read_eq {lo : Nat} {m m' : Memory} (h : Memory.wfFrom lo m = true)
    (h' : Memory.wfFrom lo m' = true) (hread : ∀ a, Memory.read m a = Memory.read m' a) : m = m' := by
  induction m generalizing lo m' with
  | nil =>
    cases m' with
    | nil => rfl
    | cons c' rest' =>
      exact absurd (fun b => (hread b).symm) (not_read_eq_of_wfFrom_lt (a := c'.1) h' rfl)
  | cons c rest ih =>
    obtain ⟨a, v⟩ := c
    cases m' with
    | nil => exact absurd hread (not_read_eq_of_wfFrom_lt h rfl)
    | cons c' rest' =>
      obtain ⟨a', v'⟩ := c'
      obtain ⟨hlo, hlt, hv, hrest⟩ := wfFrom_cons_iff.mp h
      obtain ⟨hlo', hlt', hv', hrest'⟩ := wfFrom_cons_iff.mp h'
      rcases Nat.lt_trichotomy a a' with hlt | rfl | hgt
      · exact absurd hread (not_read_eq_of_wfFrom_lt h (wfFrom_cons_iff.mpr ⟨hlt, hlt', hv', hrest'⟩))
      · have hvv : v = v' := by simpa only [read_cons_self] using hread a
        have hreads : ∀ b, Memory.read rest b = Memory.read rest' b := fun b => by
          by_cases hb : b = a
          · rw [hb, read_of_wfFrom_lt hrest (Nat.lt_succ_self a), read_of_wfFrom_lt hrest' (Nat.lt_succ_self a)]
          · simpa only [read_cons_of_ne _ _ hb] using hread b
        rw [hvv, ih hrest hrest' hreads]
      · exact absurd (fun b => (hread b).symm)
          (not_read_eq_of_wfFrom_lt h' (wfFrom_cons_iff.mpr ⟨hgt, hlt, hv, hrest⟩))

/-- Settles O58: by induction on both lists from their lowest addresses. -/
theorem canonicalMemoriesAgree : Obligations.CanonicalMemoriesAgree :=
  fun _ _ h h' hread => Memory.eq_of_read_eq h h' hread

/-! ### Power-on (R260 to R263) -/

/-- Outside the default font an unlisted address reads as 0. -/
theorem resetByte_of_outside {a : Nat} (h : a < 0x050 ∨ 0x0A0 ≤ a) : resetByte a = 0#8 := by
  have hlen : defaultFontBytes.length = 80 := rfl
  rw [resetByte, fontBase_eq]
  split
  · exact List.getD_eq_default _ _ (by omega)
  · rfl

/-- Every byte at power-on: the program's, the font's, or 0. -/
theorem read_initialMemory {p : Params} (h : p.rom.length ≤ 3584) (a : Nat) :
    Memory.read (initialMemory p) a =
      if 0x200 ≤ a ∧ a < 0x200 + p.rom.length then p.rom.getD (a - 0x200) 0#8
      else if 0x050 ≤ a ∧ a < 0x0A0 then p.font.toList.getD (a - 0x050) 0#8 else 0#8 := by
  have hrom : programStart + p.rom.length ≤ 0x1000 := by rw [programStart_eq]; omega
  rw [initialMemory, Memory.read_writeList (Memory.wf_fontMemory p.font) hrom,
    Memory.read_writeList rfl (fontBlock_le p.font), Vector.length_toList, fontBase_eq, programStart_eq]
  refine if_congr Iff.rfl rfl ?_
  by_cases hfont : 0x050 ≤ a ∧ a < 0x0A0
  · rw [if_pos hfont, if_pos hfont]
  · rw [if_neg hfont, if_neg hfont]
    exact resetByte_of_outside (by omega)

/-- Settles O59: memory block by block, and every other field as `powerOn` sets it. -/
theorem powerOnState : Obligations.PowerOnState := by
  refine fun p hlen => ⟨fun j hj => ?_, fun j hj => ?_, fun a ha => ?_, fun r => Vector.getElem_replicate _, rfl, rfl, rfl,
    fun j => Vector.getElem_replicate _, rfl, rfl, fun k => Vector.getElem_replicate _, getElem_blankFramebuffer,
    rfl, rfl, rfl, rfl⟩
  · refine (read_initialMemory hlen _).trans ?_
    rw [if_neg (by omega), if_pos (by omega), Nat.add_sub_cancel_left,
      List.getD_eq_getElem _ _ (by rw [Vector.length_toList]; exact hj), Vector.getElem_toList]
  · refine (read_initialMemory hlen _).trans ?_
    rw [if_pos (by omega), Nat.add_sub_cancel_left, List.getD_eq_getElem _ _ hj]
  · refine (read_initialMemory hlen _).trans ?_
    rw [if_neg (by omega), if_neg (by omega)]

end Sys2Proof.Machine
